-- ==== Sys2Proof/Word.lean ====
section
/-! DEFINITION. The word types of the vesc-rs framing block: the byte, the 16-bit string and the 32-bit string
(spec/00_scope.md R11, spec/30_encoding.md R65). -/

namespace Sys2Proof

/-- A byte: 8 bits, value 0 to 255, bit 0 least significant (R11). -/
abbrev Byte := BitVec 8

/-- A 16-bit string: CRCACC, the CHECKSUM field, an i16 before its sign is read (R8, R21, R65). -/
abbrev Half := BitVec 16

/-- A 32-bit string: a u32, or an i32 before its sign is read (R65). -/
abbrev Word := BitVec 32

end Sys2Proof
end

