-- ==== Sys2Proof/Config.lean ====
section
/-! DEFINITION. What an implementation fixes: the constants of spec/00_scope.md R6 and R8, and the parameters CAP, CW and
MAXNEST that R7 leaves open. -/

namespace Sys2Proof

/-- The parameters of R7. They are fixed when the hardware is built and cannot be written (spec/10_state.md R28). -/
structure Config where
  /-- CAP, the number of bytes of BUF. -/
  cap : Nat
  /-- CW, the width in bits of RD and WR; no rule depends on it (R7). -/
  cw : Nat
  /-- MAXNEST, the most ForwardCan levels of a descriptor: 0 to 125. -/
  maxNest : Fin 126
deriving DecidableEq, Repr

/-- The constraints of R7: CAP >= 1 and 2^CW > CAP (MAXNEST's bound is its type). -/
abbrev Config.WellFormed (c : Config) : Prop :=
  1 ≤ c.cap ∧ c.cap < 2 ^ c.cw

/-- CAP - 1 of the block that is built, open (R7, D6). DESIGN CHOICE, log 10: no value is chosen; safe. -/
opaque Config.builtCapLessOne : Nat

/-- The wish for CW of the block that is built, open (R7). DESIGN CHOICE, log 10; safe. -/
opaque Config.builtCw : Nat

/-- MAXNEST of the block that is built, open (R7, D14). DESIGN CHOICE, log 10; safe. -/
opaque Config.builtMaxNest : Fin 126

/-- The parameters of the block that is built. Every admissible CAP, CW and MAXNEST is a possible value; a wish for CW that
cannot hold CAP is replaced by CAP, since CAP < 2^CAP. -/
def Config.built : Config where
  cap := Config.builtCapLessOne + 1
  cw := if Config.builtCapLessOne + 1 < 2 ^ Config.builtCw then Config.builtCw else Config.builtCapLessOne + 1
  maxNest := Config.builtMaxNest

/-- START, the short-frame marker (R6, spec/30_encoding.md R64). -/
abbrev startMarker : Byte := 0x02#8
/-- END (R6). -/
abbrev endMarker : Byte := 0x03#8
/-- ID_GET_VALUES (R6). -/
abbrev idGetValues : Byte := 4#8
/-- ID_SET_CURRENT (R6). -/
abbrev idSetCurrent : Byte := 6#8
/-- ID_SET_RPM (R6). -/
abbrev idSetRpm : Byte := 8#8
/-- ID_SET_HANDBRAKE (R6). -/
abbrev idSetHandbrake : Byte := 10#8
/-- ID_FORWARD_CAN (R6). -/
abbrev idForwardCan : Byte := 34#8
/-- ID_GET_VALUES_SELECTIVE (R6). -/
abbrev idGetValuesSelective : Byte := 50#8
/-- FAULT_UNKNOWN, the host's name value for an unlisted fault code (R6); the block delivers the raw byte (R82). -/
abbrev faultUnknown : Nat := 255
/-- OVERHEAD, the frame bytes that are not payload (R6). -/
abbrev overhead : Nat := 5
/-- POLY of the CRC (R8). -/
abbrev crcPoly : Half := 0x1021#16
/-- INIT of the CRC (R8). -/
abbrev crcInit : Half := 0x0000#16
/-- XOROUT of the CRC (R8). -/
abbrev crcXorOut : Half := 0x0000#16

end Sys2Proof
end

