-- ==== Sys2Proof/Machine/Bytes.lean ====
section
/-! DEFINITION. Byte order and sign: big-endian everywhere (spec/20_memory.md R44), two's complement (R48, spec/00_scope.md
R11, R12), decided here once. -/

namespace Sys2Proof.Machine

/-- `be_2`: two bytes read big-endian, the first byte most significant (R12, R47). -/
def be2 (b0 b1 : Byte) : Half := b0 ++ b1

/-- `be_4`: four bytes read big-endian (R12, R47). -/
def be4 (b0 b1 b2 b3 : Byte) : Word := b0 ++ b1 ++ b2 ++ b3

/-- `bytes_be_2`: high byte first (R12, R50). -/
def bytesBe2 (v : Half) : List Byte := [v.extractLsb' 8 8, v.extractLsb' 0 8]

/-- `bytes_be_4`: high byte first (R12, R50). -/
def bytesBe4 (v : Word) : List Byte :=
  [v.extractLsb' 24 8, v.extractLsb' 16 8, v.extractLsb' 8 8, v.extractLsb' 0 8]

/-- `u2s_16` (R11): v when v < 2^15, else v - 2^16. -/
def u2s16 (v : Half) : Int := v.toInt

/-- `u2s_32` (R11). -/
def u2s32 (v : Word) : Int := v.toInt

/-- `s2u_32`, the inverse of `u2s_32` on -2^31 to 2^31 - 1 (R11). -/
def s2u32 (v : Int) : Word := BitVec.ofInt 32 v

/-- The natural number that a byte sequence of any length spells big-endian; the empty one spells 0. It carries the operand
dcap of a request message (DESIGN CHOICE, log 3; safe). -/
def natOfBytes (l : List Byte) : Nat := l.foldl (fun n b => n * 256 + b.toNat) 0

/-- The digits of `n` in base 256 put before `acc`, most significant first; `fuel` bounds how many. -/
def bytesOfNatAux : Nat → Nat → List Byte → List Byte
  | 0, _, acc => acc
  | fuel + 1, n, acc => if n = 0 then acc else bytesOfNatAux fuel (n / 256) (BitVec.ofNat 8 n :: acc)

/-- The shortest byte sequence that spells `n` big-endian (log 3). -/
def bytesOfNat (n : Nat) : List Byte := bytesOfNatAux n n []

end Sys2Proof.Machine
end

