-- ==== Sys2Proof/Syntax.lean ====
section
/-! DEFINITION. The syntax: command descriptors and the fifteen instructions of spec/opcode_table.json
(seven host operations, two reply frames, six command frames; spec/30_encoding.md R70, R71, R83, R84). -/

namespace Sys2Proof

/-- The command descriptor of FB.ENC, spec/30_encoding.md R84. An i32 operand is its 32-bit two's complement string
`s2u_32(v)` (log 12); the block does not look at its value (spec/43_frame_builder.md R183). -/
inductive Cmd where
  | getValues
  | setCurrent (currentRaw : Word)
  | setRpm (rpm : Word)
  | setHandbrake (currentRaw : Word)
  | getValuesSelective (mask : Word)
  | forwardCan (targetId : Byte) (inner : Cmd)
deriving DecidableEq, Repr

/-- One constructor per row of spec/opcode_table.json. The first seven are the host operations of R83 with their operands.
The `rx` two are reply frames given to the frame parser: the window is START = 0x02, the byte `len`, the id of the row, and
`rest`, whatever follows the id byte, as short or long as it is (R71, R130, R131). The `tx` six are commands given to the
frame builder with the capacity `dcap` of the destination (R70, R182 to R187). How a frame row is an instruction: log 4. -/
inductive Instr where
  | crcClr
  | crcUpd (b : Byte)
  | crcRd
  | fpDec (window : List Byte)
  | sbFeed (data : List Byte)
  | sbPull
  | fbEnc (cmd : Cmd) (dcap : Nat)
  | rxGetValues (len : Byte) (rest : List Byte)
  | rxGetValuesSelective (len : Byte) (rest : List Byte)
  | txGetValues (dcap : Nat)
  | txSetCurrent (currentRaw : Word) (dcap : Nat)
  | txSetRpm (rpm : Word) (dcap : Nat)
  | txSetHandbrake (currentRaw : Word) (dcap : Nat)
  | txForwardCan (targetId : Byte) (inner : Cmd) (dcap : Nat)
  | txGetValuesSelective (mask : Word) (dcap : Nat)
deriving DecidableEq, Repr

/-- Where a message stands at the block's boundary, which decides how its bytes are read (logs 1, 4): a host operation on
the request port, a reply frame given to the parser (the table's direction "controller to host"), or a command frame given
to the builder ("host to controller"). -/
inductive Channel where
  | request
  | rx
  | tx
deriving DecidableEq, Repr

end Sys2Proof
end

