-- ==== Sys2Proof/WellFormed.lean ====
section
/-! DEFINITION. The checks on an instruction that its type does not make: a command descriptor has at most 125 ForwardCan
levels, the most any block admits (spec/00_scope.md R7, spec/30_encoding.md R84). The bound of the block at hand, MAXNEST,
is checked where the instruction runs. -/

namespace Sys2Proof

/-- The number of ForwardCan constructors on the path to the leaf (R84). -/
def Cmd.depth : Cmd → Nat
  | .forwardCan _ inner => inner.depth + 1
  | .getValues => 0
  | .setCurrent _ => 0
  | .setRpm _ => 0
  | .setHandbrake _ => 0
  | .getValuesSelective _ => 0

/-- The largest MAXNEST that R7 admits. -/
abbrev maxNestBound : Nat := 125

/-- A descriptor that some block's request port can express (R84). -/
abbrev Cmd.WellFormed (c : Cmd) : Prop := c.depth ≤ maxNestBound

/-- The checks on each instruction's operands. -/
def Instr.wellFormed : Instr → Bool
  | .crcClr => true
  | .crcUpd _ => true
  | .crcRd => true
  | .fpDec _ => true
  | .sbFeed _ => true
  | .sbPull => true
  | .fbEnc cmd _ => decide cmd.WellFormed
  | .rxGetValues _ _ => true
  | .rxGetValuesSelective _ _ => true
  | .txGetValues _ => true
  | .txSetCurrent _ _ => true
  | .txSetRpm _ _ => true
  | .txSetHandbrake _ _ => true
  | .txForwardCan t inner _ => decide (Cmd.forwardCan t inner).WellFormed
  | .txGetValuesSelective _ _ => true

end Sys2Proof
end

