-- ==== Sys2Proof/Decode.lean ====
section
/-! DEFINITION. From a message to an instruction and back. The spec gives the operation numbers (spec/30_encoding.md R83) and
the selectors of the wire frames (R60, R70, R71, opcode_table.json) and "defines no byte-level request format beyond the
number" (spec/95_test_vectors.md, section 6); how operands follow the number is this model's (DESIGN CHOICE, logs 1 to 5). -/

namespace Sys2Proof

open Sys2Proof.Machine

/-! ## Numbers and tags -/

/-- Operation numbers, R83. -/
abbrev opCrcClr : Byte := 0x00#8
/-- R83. -/
abbrev opCrcUpd : Byte := 0x01#8
/-- R83. -/
abbrev opCrcRd : Byte := 0x02#8
/-- R83. -/
abbrev opFpDec : Byte := 0x10#8
/-- R83. -/
abbrev opSbFeed : Byte := 0x20#8
/-- R83. -/
abbrev opSbPull : Byte := 0x21#8
/-- R83. -/
abbrev opFbEnc : Byte := 0x30#8

/-- Tags of a command descriptor in a request message: the order of the constructors in R84 (DESIGN CHOICE, log 2; safe). -/
abbrev tagGetValues : Byte := 0#8
/-- Log 2. -/
abbrev tagSetCurrent : Byte := 1#8
/-- Log 2. -/
abbrev tagSetRpm : Byte := 2#8
/-- Log 2. -/
abbrev tagSetHandbrake : Byte := 3#8
/-- Log 2. -/
abbrev tagGetValuesSelective : Byte := 4#8
/-- Log 2. -/
abbrev tagForwardCan : Byte := 5#8

/-- Why a message spells no instruction. Each is a refusal with no change of state (R86; safe). -/
inductive DecodeError where
  /-- The message has no byte at all. -/
  | emptyMessage
  /-- The first byte is none of the seven operation numbers of R83 (R86). -/
  | noSuchOperation (number : Byte)
  /-- The operands end too early. -/
  | missingOperand
  /-- Bytes stand after the last operand. -/
  | trailingBytes
  /-- The tag of a descriptor is none of the six. -/
  | noSuchDescriptor (tag : Byte)
  /-- The descriptor has more ForwardCan levels than any block admits (R84). -/
  | nestedTooDeep
  /-- The selector bytes START, LENGTH, id of a message on the `tx` channel are no command frame's of R70. -/
  | noSuchCommandFrame (start len id : Byte)
deriving DecidableEq, Repr

/-! ## Decoding -/

/-- The four bytes of a 32-bit operand, big-endian, and what follows them. -/
def decodeWord : List Byte → Except DecodeError (Word × List Byte)
  | b0 :: b1 :: b2 :: b3 :: rest => .ok (be4 b0 b1 b2 b3, rest)
  | _ => .error .missingOperand

/-- A descriptor without ForwardCan: its operand follows its tag. -/
def decodeLeaf (tag : Byte) (rest : List Byte) : Except DecodeError (Cmd × List Byte) :=
  if tag = tagGetValues then .ok (.getValues, rest)
  else if tag = tagSetCurrent then (decodeWord rest).map fun x => (.setCurrent x.1, x.2)
  else if tag = tagSetRpm then (decodeWord rest).map fun x => (.setRpm x.1, x.2)
  else if tag = tagSetHandbrake then (decodeWord rest).map fun x => (.setHandbrake x.1, x.2)
  else if tag = tagGetValuesSelective then (decodeWord rest).map fun x => (.getValuesSelective x.1, x.2)
  else if tag = tagForwardCan then .error .nestedTooDeep
  else .error (.noSuchDescriptor tag)

/-- A descriptor with at most `levels` ForwardCan levels, and what follows it. -/
def decodeCmd : Nat → List Byte → Except DecodeError (Cmd × List Byte)
  | _, [] => .error .missingOperand
  | 0, tag :: rest => decodeLeaf tag rest
  | levels + 1, tag :: rest =>
    if tag = tagForwardCan then
      match rest with
      | [] => .error .missingOperand
      | target :: rest' => (decodeCmd levels rest').map fun x => (.forwardCan target x.1, x.2)
    else decodeLeaf tag rest

/-- An operation without operands: its message is its number alone. -/
def decodeBare (i : Instr) : List Byte → Except DecodeError Instr
  | [] => .ok i
  | _ :: _ => .error .trailingBytes

/-- A message on the request port: the number of R83, then the operands (log 1). A byte sequence operand is all the rest;
FB.ENC's descriptor is followed by dcap in big-endian digits (log 3). -/
def decodeRequest : List Byte → Except DecodeError Instr
  | [] => .error .emptyMessage
  | number :: rest =>
    if number = opCrcClr then decodeBare .crcClr rest
    else if number = opCrcUpd then
      match rest with
      | [] => .error .missingOperand
      | [b] => .ok (.crcUpd b)
      | _ :: _ :: _ => .error .trailingBytes
    else if number = opCrcRd then decodeBare .crcRd rest
    else if number = opFpDec then .ok (.fpDec rest)
    else if number = opSbFeed then .ok (.sbFeed rest)
    else if number = opSbPull then decodeBare .sbPull rest
    else if number = opFbEnc then
      (decodeCmd maxNestBound rest).map fun x => .fbEnc x.1 (natOfBytes x.2)
    else .error (.noSuchOperation number)

/-- A window given to the frame parser. The parser dispatches on START and id only (opcode_table.json, R124): ids 4 and 50
are the two reply frames; any other window is FP.DEC's own, so none is refused (log 4). -/
def decodeRx (window : List Byte) : Instr :=
  match window with
  | start :: len :: id :: rest =>
    if start = startMarker ∧ id = idGetValues then .rxGetValues len rest
    else if start = startMarker ∧ id = idGetValuesSelective then .rxGetValuesSelective len rest
    else .fpDec window
  | _ => .fpDec window

/-- A command given to the frame builder: the selector of its frame (R70), the operands in the order of its payload, then
dcap in big-endian digits (logs 3, 4). TX.FORWARD_CAN's selector leaves LENGTH free (mask 0xFF00FF); the builder computes it. -/
def decodeTx : List Byte → Except DecodeError Instr
  | start :: len :: id :: rest =>
    if start = startMarker ∧ len = 1#8 ∧ id = idGetValues then .ok (.txGetValues (natOfBytes rest))
    else if start = startMarker ∧ len = 5#8 ∧ id = idSetCurrent then
      (decodeWord rest).map fun x => .txSetCurrent x.1 (natOfBytes x.2)
    else if start = startMarker ∧ len = 5#8 ∧ id = idSetRpm then
      (decodeWord rest).map fun x => .txSetRpm x.1 (natOfBytes x.2)
    else if start = startMarker ∧ len = 5#8 ∧ id = idSetHandbrake then
      (decodeWord rest).map fun x => .txSetHandbrake x.1 (natOfBytes x.2)
    else if start = startMarker ∧ id = idForwardCan then
      match rest with
      | [] => .error .missingOperand
      | target :: rest' =>
        (decodeCmd (maxNestBound - 1) rest').map fun x => .txForwardCan target x.1 (natOfBytes x.2)
    else if start = startMarker ∧ len = 5#8 ∧ id = idGetValuesSelective then
      (decodeWord rest).map fun x => .txGetValuesSelective x.1 (natOfBytes x.2)
    else .error (.noSuchCommandFrame start len id)
  | _ => .error .missingOperand

/-- The instruction a message spells on the channel it stands on. -/
def decode : Channel → List Byte → Except DecodeError Instr
  | .request, bytes => decodeRequest bytes
  | .rx, bytes => .ok (decodeRx bytes)
  | .tx, bytes => decodeTx bytes

/-! ## Encoding -/

/-- The descriptor in a request message (log 2). -/
def encodeCmd : Cmd → List Byte
  | .getValues => [tagGetValues]
  | .setCurrent raw => tagSetCurrent :: bytesBe4 raw
  | .setRpm rpm => tagSetRpm :: bytesBe4 rpm
  | .setHandbrake raw => tagSetHandbrake :: bytesBe4 raw
  | .getValuesSelective mask => tagGetValuesSelective :: bytesBe4 mask
  | .forwardCan target inner => tagForwardCan :: target :: encodeCmd inner

/-- L, the payload length of a command's frame (R70). -/
def payloadLength : Cmd → Nat
  | .getValues => 1
  | .setCurrent _ => 5
  | .setRpm _ => 5
  | .setHandbrake _ => 5
  | .getValuesSelective _ => 5
  | .forwardCan _ inner => 2 + payloadLength inner

/-- The channel and the bytes of an instruction. -/
def encode : Instr → Channel × List Byte
  | .crcClr => (.request, [opCrcClr])
  | .crcUpd b => (.request, [opCrcUpd, b])
  | .crcRd => (.request, [opCrcRd])
  | .fpDec window => (.request, opFpDec :: window)
  | .sbFeed data => (.request, opSbFeed :: data)
  | .sbPull => (.request, [opSbPull])
  | .fbEnc cmd dcap => (.request, opFbEnc :: encodeCmd cmd ++ bytesOfNat dcap)
  | .rxGetValues len rest => (.rx, startMarker :: len :: idGetValues :: rest)
  | .rxGetValuesSelective len rest => (.rx, startMarker :: len :: idGetValuesSelective :: rest)
  | .txGetValues dcap => (.tx, startMarker :: 1#8 :: idGetValues :: bytesOfNat dcap)
  | .txSetCurrent raw dcap => (.tx, startMarker :: 5#8 :: idSetCurrent :: (bytesBe4 raw ++ bytesOfNat dcap))
  | .txSetRpm rpm dcap => (.tx, startMarker :: 5#8 :: idSetRpm :: (bytesBe4 rpm ++ bytesOfNat dcap))
  | .txSetHandbrake raw dcap => (.tx, startMarker :: 5#8 :: idSetHandbrake :: (bytesBe4 raw ++ bytesOfNat dcap))
  | .txForwardCan target inner dcap =>
    (.tx, startMarker :: BitVec.ofNat 8 (2 + payloadLength inner) :: idForwardCan :: target :: (encodeCmd inner ++ bytesOfNat dcap))
  | .txGetValuesSelective mask dcap =>
    (.tx, startMarker :: 5#8 :: idGetValuesSelective :: (bytesBe4 mask ++ bytesOfNat dcap))

/-! ## The words of spec/opcode_table.json -/

/-- The operand bytes, all 0, that follow the number of a host operation: CRC.UPD's b, and FB.ENC's tag. -/
def zeroOperandsOfRequest (number : Byte) : List Byte :=
  if number = opCrcUpd then [0#8] else if number = opFbEnc then [0#8] else []

/-- The channel of a frame row's selector. A selector that the table fixes whole, or whose id only a command has, is a
command's; the only selectors both directions share are 0x020104 (as an echoed command) and 0x020532, and both are read as
the command, the row that fixes all 24 bits (log 5). -/
def channelOfSelector (len id : Byte) : Channel :=
  if id = idSetCurrent ∨ id = idSetRpm ∨ id = idSetHandbrake ∨ id = idForwardCan then .tx
  else if len = 1#8 ∧ id = idGetValues then .tx
  else if len = 5#8 ∧ id = idGetValuesSelective then .tx
  else .rx

/-- The operand bytes, all 0, that follow a selector: up to the longest frame, 83 bytes (spec/41_frame_parser.md R138), for a
reply; the payload fields, with dcap as no digits, for a command. -/
def zeroOperandsOfFrame (channel : Channel) (id : Byte) : List Byte :=
  match channel with
  | .rx => List.replicate 80 0#8
  | .tx => if id = idGetValues then [] else if id = idForwardCan then [0#8, 0#8] else List.replicate 4 0#8
  | .request => []

/-- The message of a table row's bits with every operand bit 0. A row of 8 bits is an operation number. A row of 24 bits is
"frame bytes 0, 1, 2 as a 24-bit number, byte 0 most significant" (opcode_table.json, log 5). -/
def tableMessage (nbits w : Nat) : Channel × List Byte :=
  if nbits ≤ 8 then
    let number := BitVec.ofNat 8 w
    (.request, number :: zeroOperandsOfRequest number)
  else
    let start : Byte := BitVec.ofNat 8 (w / 65536)
    let len : Byte := BitVec.ofNat 8 (w / 256)
    let id : Byte := BitVec.ofNat 8 w
    let channel := channelOfSelector len id
    (channel, start :: len :: id :: zeroOperandsOfFrame channel id)

/-- The instruction the decoder reads from a table row's bits. -/
def decodeTableWord (nbits w : Nat) : Option Instr :=
  (decode (tableMessage nbits w).1 (tableMessage nbits w).2).toOption

end Sys2Proof
end

