-- ==== Sys2Proof/Machine/Reply.lean ====
section
/-! DEFINITION. The reply record (spec/30_encoding.md R76 to R78), the table of its 24 fields, and the responses and errors
of the block (spec/00_scope.md R13, spec/60_exceptions.md R200). -/

namespace Sys2Proof.Machine

/-- The wire types of R65. -/
inductive WireType where
  | u8
  | i16
  | i32
  | u32
deriving DecidableEq, Repr

/-- The number of bytes of a wire type, R65. -/
def wireSize : WireType → Nat
  | .u8 => 1
  | .i16 => 2
  | .i32 => 4
  | .u32 => 4

/-- The 24 fields of a reply, in the order of R76. -/
inductive Field where
  | tempMosfet
  | tempMotor
  | avgCurrentMotor
  | avgCurrentInput
  | avgCurrentD
  | avgCurrentQ
  | dutyCycle
  | rpm
  | voltageIn
  | ampHours
  | ampHoursCharged
  | wattHours
  | wattHoursCharged
  | tachometer
  | tachometerAbs
  | faultCode
  | pidPos
  | controllerId
  | tempMosfet1
  | tempMosfet2
  | tempMosfet3
  | avgVoltageD
  | avgVoltageQ
  | status
deriving DecidableEq, Repr

/-- The fixed order of the fields on the wire, R76. -/
def allFields : List Field :=
  [.tempMosfet, .tempMotor, .avgCurrentMotor, .avgCurrentInput, .avgCurrentD, .avgCurrentQ, .dutyCycle, .rpm,
   .voltageIn, .ampHours, .ampHoursCharged, .wattHours, .wattHoursCharged, .tachometer, .tachometerAbs, .faultCode,
   .pidPos, .controllerId, .tempMosfet1, .tempMosfet2, .tempMosfet3, .avgVoltageD, .avgVoltageQ, .status]

/-- The wire type of a field, R76 (temp_motor is 16 bits wide: spec/90_conflicts.md C1). -/
def fieldType : Field → WireType
  | .tempMosfet => .i16
  | .tempMotor => .i16
  | .avgCurrentMotor => .i32
  | .avgCurrentInput => .i32
  | .avgCurrentD => .i32
  | .avgCurrentQ => .i32
  | .dutyCycle => .i16
  | .rpm => .i32
  | .voltageIn => .i16
  | .ampHours => .i32
  | .ampHoursCharged => .i32
  | .wattHours => .i32
  | .wattHoursCharged => .i32
  | .tachometer => .i32
  | .tachometerAbs => .i32
  | .faultCode => .u8
  | .pidPos => .i32
  | .controllerId => .u8
  | .tempMosfet1 => .i16
  | .tempMosfet2 => .i16
  | .tempMosfet3 => .i16
  | .avgVoltageD => .i32
  | .avgVoltageQ => .i32
  | .status => .u8

/-- The mask bit that selects a field, R76 and R80: bit 18 selects the three mosfet temperatures. -/
def fieldBit : Field → Nat
  | .tempMosfet => 0
  | .tempMotor => 1
  | .avgCurrentMotor => 2
  | .avgCurrentInput => 3
  | .avgCurrentD => 4
  | .avgCurrentQ => 5
  | .dutyCycle => 6
  | .rpm => 7
  | .voltageIn => 8
  | .ampHours => 9
  | .ampHoursCharged => 10
  | .wattHours => 11
  | .wattHoursCharged => 12
  | .tachometer => 13
  | .tachometerAbs => 14
  | .faultCode => 15
  | .pidPos => 16
  | .controllerId => 17
  | .tempMosfet1 => 18
  | .tempMosfet2 => 18
  | .tempMosfet3 => 18
  | .avgVoltageD => 19
  | .avgVoltageQ => 20
  | .status => 21

/-- The scale of a field, R76: `none` where the field is a plain integer, an enumeration or an identifier. The block never
applies it (R65, R78); the host does (Machine/HostSide.lean). -/
def fieldScale : Field → Option Nat
  | .tempMosfet => some 10
  | .tempMotor => some 10
  | .avgCurrentMotor => some 100
  | .avgCurrentInput => some 100
  | .avgCurrentD => some 100
  | .avgCurrentQ => some 100
  | .dutyCycle => some 1000
  | .rpm => some 1
  | .voltageIn => some 10
  | .ampHours => some 10000
  | .ampHoursCharged => some 10000
  | .wattHours => some 10000
  | .wattHoursCharged => some 10000
  | .tachometer => none
  | .tachometerAbs => none
  | .faultCode => none
  | .pidPos => some 1000000
  | .controllerId => none
  | .tempMosfet1 => some 10
  | .tempMosfet2 => some 10
  | .tempMosfet3 => some 10
  | .avgVoltageD => some 1000
  | .avgVoltageQ => some 1000
  | .status => none

/-- The fields that mask bit `b` selects, in the order of R76; none for the bits 22 to 31 (R80, R81). -/
def fieldsOfBit (b : Nat) : List Field := allFields.filter fun f => decide (fieldBit f = b)

/-- The fields a selective reply with this mask carries: for each bit from 0 to 21 in ascending order, the fields of that
bit if it is set (R77, spec/41_frame_parser.md R131). -/
def selectedFields (mask : Word) : List Field :=
  (List.range 22).flatMap fun b => if mask.getLsbD b then fieldsOfBit b else []

/-- The bytes a list of fields occupies on the wire. -/
def fieldsSize (fs : List Field) : Nat := (fs.map fun f => wireSize (fieldType f)).sum

/-- The Values record: 24 raw fields, each an integer, default 0 (R78). i16 and i32 fields are signed, u8 fields are 0 to
255. -/
structure Values where
  tempMosfet : Int := 0
  tempMotor : Int := 0
  avgCurrentMotor : Int := 0
  avgCurrentInput : Int := 0
  avgCurrentD : Int := 0
  avgCurrentQ : Int := 0
  dutyCycle : Int := 0
  rpm : Int := 0
  voltageIn : Int := 0
  ampHours : Int := 0
  ampHoursCharged : Int := 0
  wattHours : Int := 0
  wattHoursCharged : Int := 0
  tachometer : Int := 0
  tachometerAbs : Int := 0
  faultCode : Int := 0
  pidPos : Int := 0
  controllerId : Int := 0
  tempMosfet1 : Int := 0
  tempMosfet2 : Int := 0
  tempMosfet3 : Int := 0
  avgVoltageD : Int := 0
  avgVoltageQ : Int := 0
  status : Int := 0
deriving DecidableEq, Repr

/-- The record with all 24 raw fields 0 (spec/41_frame_parser.md R121). -/
def zeroValues : Values where

/-- `V.<field>`. -/
def getField (v : Values) : Field → Int
  | .tempMosfet => v.tempMosfet
  | .tempMotor => v.tempMotor
  | .avgCurrentMotor => v.avgCurrentMotor
  | .avgCurrentInput => v.avgCurrentInput
  | .avgCurrentD => v.avgCurrentD
  | .avgCurrentQ => v.avgCurrentQ
  | .dutyCycle => v.dutyCycle
  | .rpm => v.rpm
  | .voltageIn => v.voltageIn
  | .ampHours => v.ampHours
  | .ampHoursCharged => v.ampHoursCharged
  | .wattHours => v.wattHours
  | .wattHoursCharged => v.wattHoursCharged
  | .tachometer => v.tachometer
  | .tachometerAbs => v.tachometerAbs
  | .faultCode => v.faultCode
  | .pidPos => v.pidPos
  | .controllerId => v.controllerId
  | .tempMosfet1 => v.tempMosfet1
  | .tempMosfet2 => v.tempMosfet2
  | .tempMosfet3 => v.tempMosfet3
  | .avgVoltageD => v.avgVoltageD
  | .avgVoltageQ => v.avgVoltageQ
  | .status => v.status

/-- `V.<field> <- x`. -/
def setField (v : Values) (f : Field) (x : Int) : Values :=
  match f with
  | .tempMosfet => { v with tempMosfet := x }
  | .tempMotor => { v with tempMotor := x }
  | .avgCurrentMotor => { v with avgCurrentMotor := x }
  | .avgCurrentInput => { v with avgCurrentInput := x }
  | .avgCurrentD => { v with avgCurrentD := x }
  | .avgCurrentQ => { v with avgCurrentQ := x }
  | .dutyCycle => { v with dutyCycle := x }
  | .rpm => { v with rpm := x }
  | .voltageIn => { v with voltageIn := x }
  | .ampHours => { v with ampHours := x }
  | .ampHoursCharged => { v with ampHoursCharged := x }
  | .wattHours => { v with wattHours := x }
  | .wattHoursCharged => { v with wattHoursCharged := x }
  | .tachometer => { v with tachometer := x }
  | .tachometerAbs => { v with tachometerAbs := x }
  | .faultCode => { v with faultCode := x }
  | .pidPos => { v with pidPos := x }
  | .controllerId => { v with controllerId := x }
  | .tempMosfet1 => { v with tempMosfet1 := x }
  | .tempMosfet2 => { v with tempMosfet2 := x }
  | .tempMosfet3 => { v with tempMosfet3 := x }
  | .avgVoltageD => { v with avgVoltageD := x }
  | .avgVoltageQ => { v with avgVoltageQ := x }
  | .status => { v with status := x }

/-- The two kinds of reply, R71. -/
inductive ReplyKind where
  | getValues
  | getValuesSelective
deriving DecidableEq, Repr

/-- The reply record: the kind and the values; it carries no mask (R78). -/
structure Reply where
  kind : ReplyKind
  values : Values
deriving DecidableEq, Repr

/-- The five errors and their info, spec/60_exceptions.md R200. -/
inductive Err where
  /-- R201: a read asked for more bytes than the window has left. -/
  | incompleteData
  /-- R202: `expected` is the CHECKSUM field of the frame, `actual` the CRC of the payload received. -/
  | checksumMismatch (expected actual : Half)
  /-- R203: the third byte of the window is neither 4 nor 50. -/
  | unknownPacket (id : Byte)
  /-- R204: START, LENGTH or END. -/
  | invalidFrame
  /-- R205: the destination cannot hold the frame. -/
  | bufferTooSmall
deriving DecidableEq, Repr

/-- The response of an operation, R13 and R83. -/
inductive Response where
  /-- Ok() of CRC.CLR and CRC.UPD. -/
  | done
  /-- Ok(c) of CRC.RD. -/
  | checksum (c : Half)
  /-- Ok(consumed, reply) of FP.DEC. -/
  | decoded (consumed : Nat) (reply : Reply)
  /-- Ok(k) of SB.FEED. -/
  | copied (k : Nat)
  /-- Some(reply) or None of SB.PULL. -/
  | pulled (reply : Option Reply)
  /-- Ok(frame) of FB.ENC. -/
  | frame (bytes : List Byte)
  /-- Err(E, info). -/
  | error (e : Err)
deriving DecidableEq, Repr

end Sys2Proof.Machine
end

