-- ==== Sys2Proof/Machine/State.lean ====
section
/-! DEFINITION. The state of the block (spec/10_state.md R20), its reset value (R32), and the reasons a step can stop. -/

namespace Sys2Proof.Machine

/-- What the host can present at the block's boundary. -/
inductive Input where
  /-- A message: a host operation on the request port, or a wire frame given to the parser or the builder (logs 1, 4). -/
  | message (channel : Channel) (bytes : List Byte)
  /-- The reset event, which is no operation and has no response (spec/70_reset_and_hazards.md R230, R231). -/
  | reset
deriving DecidableEq, Repr

/-- The state. The first four fields are the whole architectural state of R20. `cfg` holds the parameters of the block, which
nothing writes (R28, log 10). `inputs` and `responses` are the model's own: what the host will present, next first (log 6),
and what the block has answered, oldest first (R15, log 7). -/
structure State where
  /-- CRCACC (R21). -/
  crcAcc : Half
  /-- BUF (R22): the bytes that have been written, addresses rising; an address not listed holds no known value (R30, log 8). -/
  buf : List Host.Cell
  /-- RD, the read cursor (R23). -/
  rd : Nat
  /-- WR, the write cursor (R23). -/
  wr : Nat
  /-- CAP, CW and MAXNEST (spec/00_scope.md R7). -/
  cfg : Config
  /-- The inputs not yet taken. -/
  inputs : List Input
  /-- The responses given. -/
  responses : List Response
deriving DecidableEq, Repr

/-- What stops the machine with a fault. No operation reaches one from a state that meets the invariant of R24 (log 8). -/
inductive Fault where
  /-- MemRead or MemWrite with a + n > CAP: the address does not exist (spec/20_memory.md R42). Raised by SB.FEED and SB.PULL
  in states no run reaches. Safe. -/
  | bufOutOfRange
  /-- A read of a byte of BUF that nothing has written since reset: its content is unspecified (R30). Raised by SB.FEED and
  SB.PULL in states no run reaches. Safe. -/
  | bufUnspecified
deriving DecidableEq, Repr

/-- What the block refuses, with no change of state. -/
inductive Refusal where
  /-- The instruction has no meaning yet; raised by no arm of `exec` now. Safe. -/
  | notModelled (mnemonic : String)
  /-- The message spells no operation: spec/30_encoding.md R86 for a number that is not assigned, log 1 for the rest. Raised by
  `step`. Safe. -/
  | undecoded (why : DecodeError)
  /-- The descriptor has more than MAXNEST ForwardCan levels: "a model refuses it" (R84). Raised by FB.ENC and TX.FORWARD_CAN.
  Safe. -/
  | nestedDeeperThanMaxNest
deriving DecidableEq, Repr

/-- The block after reset (R32, spec/70_reset_and_hazards.md R230): CRCACC = 0x0000, RD = WR = 0, BUF unspecified. The
parameters are those of the block that is built; nothing is presented and nothing has been answered. -/
def State.reset : State where
  crcAcc := 0x0000#16
  buf := []
  rd := 0
  wr := 0
  cfg := Config.built
  inputs := []
  responses := []

end Sys2Proof.Machine
end

