-- ==== Sys2Proof/Machine/Ops.lean ====
section
/-! DEFINITION. The named operations over the state: BUF (spec/20_memory.md R40 to R42, R52, R53), the response port and the
error entry (spec/60_exceptions.md R200, R207, R208), reset (spec/70_reset_and_hazards.md R230), and taking the next input. -/

namespace Sys2Proof.Machine

/-! ## BUF as a list of cells -/

/-- One byte of BUF; none where nothing has been written (log 8). -/
def readCell : List Host.Cell → Nat → Option Byte
  | [], _ => none
  | (k, b) :: rest, a => if k = a then some b else readCell rest a

/-- Write one byte, keeping the addresses rising. -/
def writeCell : List Host.Cell → Nat → Byte → List Host.Cell
  | [], a, b => [(a, b)]
  | (k, c) :: rest, a, b =>
    if a < k then (a, b) :: (k, c) :: rest
    else if a = k then (a, b) :: rest
    else (k, c) :: writeCell rest a b

/-- The `n` bytes at and above `a`; none if one of them has not been written. -/
def readCells (m : List Host.Cell) : Nat → Nat → Option (List Byte)
  | _, 0 => some []
  | a, n + 1 =>
    match readCell m a with
    | none => none
    | some b => (readCells m (a + 1) n).map (b :: ·)

/-- Write a byte sequence at and above `a`, in order (R53). -/
def writeCells : List Host.Cell → Nat → List Byte → List Host.Cell
  | m, _, [] => m
  | m, a, b :: rest => writeCells (writeCell m a b) (a + 1) rest

/-- The canonical form of BUF: rising addresses. An unlisted address reads as no value, which no entry can equal. -/
abbrev Memory.wf (m : List Host.Cell) : Prop := (m.map Prod.fst).Pairwise (· < ·)

/-! ## MemRead and MemWrite -/

/-- `MemRead(a, n)`, spec/00_scope.md R12: the bytes BUF[a..a+n). It needs a + n <= CAP (R42). -/
def memRead (s : State) (a n : Nat) : Except Fault (List Byte) :=
  if a + n ≤ s.cfg.cap then
    match readCells s.buf a n with
    | some bytes => .ok bytes
    | none => .error .bufUnspecified
  else .error .bufOutOfRange

/-- `MemWrite(a, |v|, v)`, spec/00_scope.md R12. It needs a + |v| <= CAP (R42). -/
def memWrite (s : State) (a : Nat) (v : List Byte) : Except Fault State :=
  if a + v.length ≤ s.cfg.cap then .ok { s with buf := writeCells s.buf a v }
  else .error .bufOutOfRange

/-! ## Responses and errors -/

/-- Give a response. It is recorded after the earlier ones (spec/00_scope.md R15, log 7). -/
def respond (s : State) (r : Response) : State := { s with responses := s.responses ++ [r] }

/-- Error entry, R207: "An error response saves nothing and changes nothing". There is no error return to model: "There is
nothing to return from. After any response, error or not, the block accepts the next operation" (R208). -/
def raise (s : State) (e : Err) : State := respond s (.error e)

/-- The end of an operation that answers a value or an error. -/
def answer (s : State) : Except Err Response → State
  | .ok r => respond s r
  | .error e => raise s e

/-! ## Reset and the next input -/

/-- Reset, R230: CRCACC = 0x0000, RD = WR = 0, BUF unspecified, no response (R231). The parameters stay (R28), and so do the
host's own inputs and the record of earlier responses. BUF is forgotten, not kept (log 9). -/
def applyReset (s : State) : State :=
  { s with crcAcc := 0x0000#16, buf := [], rd := 0, wr := 0 }

/-- Take the next input from the host, if there is one; the block has no step of its own (spec/00_scope.md R9). -/
def nextInput (s : State) : Option (Input × State) :=
  match s.inputs with
  | [] => none
  | i :: rest => some (i, { s with inputs := rest })

/-- Whether a descriptor has at most MAXNEST ForwardCan levels (spec/30_encoding.md R84). -/
def nestsWithin : Cmd → Nat → Bool
  | .forwardCan _ _, 0 => false
  | .forwardCan _ inner, n + 1 => nestsWithin inner n
  | .getValues, _ => true
  | .setCurrent _, _ => true
  | .setRpm _, _ => true
  | .setHandbrake _, _ => true
  | .getValuesSelective _, _ => true

end Sys2Proof.Machine
end

