-- ==== Sys2Proof/Machine/Operands.lean ====
section
/-! DEFINITION. The operand forms: the read primitives of a window cursor (spec/20_memory.md R46 to R49) and the write
primitives of a destination cursor (R50). A primitive that fails reads or writes nothing and moves no cursor. -/

namespace Sys2Proof.Machine

/-! ## Reading a window `w` through a cursor `p` -/

/-- `rd_u8`, R46. -/
def rdU8 (w : List Byte) (p : Nat) : Except Err (Byte × Nat) :=
  match w.drop p with
  | b :: _ => .ok (b, p + 1)
  | [] => .error .incompleteData

/-- `rd_u16`, R47. -/
def rdU16 (w : List Byte) (p : Nat) : Except Err (Half × Nat) :=
  match w.drop p with
  | b0 :: b1 :: _ => .ok (be2 b0 b1, p + 2)
  | _ => .error .incompleteData

/-- `rd_u32`, R47. -/
def rdU32 (w : List Byte) (p : Nat) : Except Err (Word × Nat) :=
  match w.drop p with
  | b0 :: b1 :: b2 :: b3 :: _ => .ok (be4 b0 b1 b2 b3, p + 4)
  | _ => .error .incompleteData

/-- `rd_i16`, R48: `u2s_16(rd_u16())`. -/
def rdI16 (w : List Byte) (p : Nat) : Except Err (Int × Nat) :=
  (rdU16 w p).map fun x => (u2s16 x.1, x.2)

/-- `rd_i32`, R48: `u2s_32(rd_u32())`. -/
def rdI32 (w : List Byte) (p : Nat) : Except Err (Int × Nat) :=
  (rdU32 w p).map fun x => (u2s32 x.1, x.2)

/-- Read a raw value of a wire type (R65). -/
def rdRaw : WireType → List Byte → Nat → Except Err (Int × Nat)
  | .u8, w, p => (rdU8 w p).map fun x => ((x.1.toNat : Int), x.2)
  | .i16, w, p => rdI16 w p
  | .i32, w, p => rdI32 w p
  | .u32, w, p => (rdU32 w p).map fun x => ((x.1.toNat : Int), x.2)

/-- Read the fields in the order given, each into its place of the record; the first read past the end ends it
(spec/41_frame_parser.md R125). -/
def readFields (w : List Byte) : List Field → Values → Nat → Except Err (Values × Nat)
  | [], v, p => .ok (v, p)
  | f :: fs, v, p =>
    match rdRaw (fieldType f) w p with
    | .error e => .error e
    | .ok (x, p') => readFields w fs (setField v f x) p'

/-! ## Writing a destination -/

/-- A destination of `cap` bytes with the bytes written so far; the cursor q is their number (R50; log 16). -/
structure Dest where
  cap : Nat
  bytes : List Byte
deriving DecidableEq, Repr

/-- The cursor q. -/
def destPos (d : Dest) : Nat := d.bytes.length

/-- All-or-nothing write of `l` at the cursor: BufferTooSmall if `room` is less than its length (R50). -/
def wrBytes (d : Dest) (l : List Byte) : Except Err Dest :=
  if d.cap - destPos d < l.length then .error .bufferTooSmall
  else .ok { d with bytes := d.bytes ++ l }

/-- `wr_u8`, R50. -/
def wrU8 (d : Dest) (v : Byte) : Except Err Dest := wrBytes d [v]

/-- `wr_u16`, R50. -/
def wrU16 (d : Dest) (v : Half) : Except Err Dest := wrBytes d (bytesBe2 v)

/-- `wr_u32`, R50. -/
def wrU32 (d : Dest) (v : Word) : Except Err Dest := wrBytes d (bytesBe4 v)

/-- `wr_i32`, R50, given the two's complement string `s2u_32(v)` of its operand (log 12). -/
def wrI32 (d : Dest) (v : Word) : Except Err Dest := wrU32 d v

/-- `dest[a] <- v` for a byte that has been written (the backpatch of spec/43_frame_builder.md R181). -/
def patchByte (d : Dest) (a : Nat) (v : Byte) : Dest := { d with bytes := d.bytes.set a v }

end Sys2Proof.Machine
end

