-- ==== Sys2Proof/Machine/Builder.lean ====
section
/-! DEFINITION. The frame builder: FB.ENC (spec/43_frame_builder.md R180, R181, R188) and the six command frames
(R182 to R187). -/

namespace Sys2Proof.Machine

/-! ## The payloads: what `pack` writes -/

/-- Two writes one after the other; the first BufferTooSmall ends them. -/
def andThen (a b : Dest → Except Err Dest) (d : Dest) : Except Err Dest :=
  match a d with
  | .error e => .error e
  | .ok d' => b d'

/-- R182, format C0: the id alone. -/
def packGetValues (d : Dest) : Except Err Dest := wrU8 d idGetValues

/-- Format C1: an id and an i32 (spec/30_encoding.md R73). -/
def packI32 (id : Byte) (v : Word) : Dest → Except Err Dest :=
  andThen (fun d => wrU8 d id) (fun d => wrI32 d v)

/-- R183. -/
def packSetCurrent (raw : Word) : Dest → Except Err Dest := packI32 idSetCurrent raw

/-- R184. -/
def packSetRpm (rpm : Word) : Dest → Except Err Dest := packI32 idSetRpm rpm

/-- R185. -/
def packSetHandbrake (raw : Word) : Dest → Except Err Dest := packI32 idSetHandbrake raw

/-- R187, format CM: all 32 bits of the mask as given. -/
def packGetValuesSelective (mask : Word) : Dest → Except Err Dest :=
  andThen (fun d => wrU8 d idGetValuesSelective) (fun d => wrU32 d mask)

/-- R186, format CF: the id, the target, then the inner command's whole payload with no length and no framing. -/
def packForwardCan (target : Byte) (inner : Dest → Except Err Dest) : Dest → Except Err Dest :=
  andThen (fun d => wrU8 d idForwardCan) (andThen (fun d => wrU8 d target) inner)

/-- `pack(cmd)`. -/
def pack : Cmd → Dest → Except Err Dest
  | .getValues => packGetValues
  | .setCurrent raw => packSetCurrent raw
  | .setRpm rpm => packSetRpm rpm
  | .setHandbrake raw => packSetHandbrake raw
  | .getValuesSelective mask => packGetValuesSelective mask
  | .forwardCan target inner => packForwardCan target (pack inner)

/-! ## The frame -/

/-- LENGTH, CHECKSUM and END of R181, once the payload stands at `ps` and above: LENGTH is backpatched at dest[1]; the
CHECKSUM covers the payload only. -/
def closeFrame (ps : Nat) (d : Dest) : Except Err (List Byte) :=
  let pe := destPos d
  let d1 := patchByte d 1 (BitVec.ofNat 8 (pe - ps))
  match wrU16 d1 (crc16 ((d1.bytes.drop ps).take (pe - ps))) with
  | .error e => .error e
  | .ok d2 =>
    match wrU8 d2 endMarker with
    | .error e => .error e
    | .ok d3 => .ok d3.bytes

/-- The algorithm of R181 for the payload that `packer` writes, into a destination of `dcap` bytes: START, a placeholder for
LENGTH, the payload, then the rest. -/
def buildFrame (packer : Dest → Except Err Dest) (dcap : Nat) : Except Err (List Byte) :=
  match andThen (fun d => wrU8 d startMarker) (fun d => wrU8 d 0#8) ⟨dcap, []⟩ with
  | .error e => .error e
  | .ok d =>
    match packer d with
    | .error e => .error e
    | .ok d' => closeFrame (destPos d) d'

/-- The response of a build (R180): the frame as a whole, or BufferTooSmall and nothing (R188). -/
def buildResponse (packer : Dest → Except Err Dest) (dcap : Nat) : Except Err Response :=
  (buildFrame packer dcap).map .frame

/-! ## The operations -/

/-- FB.ENC cmd, dcap, R180: no state is read or written. A descriptor deeper than MAXNEST is refused (R84). -/
def execFbEnc (cmd : Cmd) (dcap : Nat) (s : State) : Host.Outcome State Fault Refusal :=
  if nestsWithin cmd s.cfg.maxNest.val then .next (answer s (buildResponse (pack cmd) dcap))
  else .refused .nestedDeeperThanMaxNest

/-- TX.GET_VALUES, R182. -/
def execTxGetValues (dcap : Nat) (s : State) : Host.Outcome State Fault Refusal :=
  .next (answer s (buildResponse packGetValues dcap))

/-- TX.SET_CURRENT, R183. -/
def execTxSetCurrent (raw : Word) (dcap : Nat) (s : State) : Host.Outcome State Fault Refusal :=
  .next (answer s (buildResponse (packSetCurrent raw) dcap))

/-- TX.SET_RPM, R184. -/
def execTxSetRpm (rpm : Word) (dcap : Nat) (s : State) : Host.Outcome State Fault Refusal :=
  .next (answer s (buildResponse (packSetRpm rpm) dcap))

/-- TX.SET_HANDBRAKE, R185. -/
def execTxSetHandbrake (raw : Word) (dcap : Nat) (s : State) : Host.Outcome State Fault Refusal :=
  .next (answer s (buildResponse (packSetHandbrake raw) dcap))

/-- TX.FORWARD_CAN, R186: with MAXNEST = 0 it cannot be expressed; a path longer than MAXNEST is refused (R84). -/
def execTxForwardCan (target : Byte) (inner : Cmd) (dcap : Nat) (s : State) : Host.Outcome State Fault Refusal :=
  if nestsWithin (.forwardCan target inner) s.cfg.maxNest.val then
    .next (answer s (buildResponse (packForwardCan target (pack inner)) dcap))
  else .refused .nestedDeeperThanMaxNest

/-- TX.GET_VALUES_SELECTIVE, R187. -/
def execTxGetValuesSelective (mask : Word) (dcap : Nat) (s : State) : Host.Outcome State Fault Refusal :=
  .next (answer s (buildResponse (packGetValuesSelective mask) dcap))

end Sys2Proof.Machine
end

