-- ==== Sys2Proof/Machine/Parser.lean ====
section
/-! DEFINITION. The frame parser: `parse(W)` (spec/41_frame_parser.md R121), FP.DEC (R120), and the two reply frames
RX.GET_VALUES (R130) and RX.GET_VALUES_SELECTIVE (R131). -/

namespace Sys2Proof.Machine

/-- Steps 5 to 7 and the success of R121, once the payload has been read: `ps` is the cursor after LENGTH, `pe` the cursor
after the payload. The length verdict comes before CHECKSUM is fetched (R126); END is fetched before the checksum verdict,
which comes before the END verdict (R128, spec/90_conflicts.md C6). `expected` is the field, `actual` the value computed
(R127). -/
def finishFrame (w : List Byte) (len : Byte) (ps pe : Nat) (reply : Reply) : Except Err (Nat × Reply) :=
  if pe - ps ≠ len.toNat then .error .invalidFrame
  else
    match rdU16 w pe with
    | .error e => .error e
    | .ok (field, p1) =>
      match rdU8 w p1 with
      | .error e => .error e
      | .ok (e, p2) =>
        let computed := crc16 ((w.drop ps).take (pe - ps))
        if field ≠ computed then .error (.checksumMismatch field computed)
        else if e ≠ endMarker then .error .invalidFrame
        else .ok (p2, reply)

/-- `unpack_values`, R130: the 24 fields in their fixed order. -/
def unpackValues (w : List Byte) (p : Nat) : Except Err (Values × Nat) :=
  readFields w allFields zeroValues p

/-- `unpack_selective`, R131: the mask, then the fields of its set bits in ascending order; every other field is 0. -/
def unpackSelective (w : List Byte) (p : Nat) : Except Err (Values × Nat) :=
  match rdU32 w p with
  | .error e => .error e
  | .ok (mask, p1) => readFields w (selectedFields mask) zeroValues p1

/-- The rest of a parse whose id byte was 4: `ps` is the cursor before the id, `p` the one after it. -/
def parseGetValues (w : List Byte) (len : Byte) (ps p : Nat) : Except Err (Nat × Reply) :=
  match unpackValues w p with
  | .error e => .error e
  | .ok (v, pe) => finishFrame w len ps pe ⟨.getValues, v⟩

/-- The rest of a parse whose id byte was 50. -/
def parseSelective (w : List Byte) (len : Byte) (ps p : Nat) : Except Err (Nat × Reply) :=
  match unpackSelective w p with
  | .error e => .error e
  | .ok (v, pe) => finishFrame w len ps pe ⟨.getValuesSelective, v⟩

/-- Step 3 of R121: the dispatch on the id byte (R124). -/
def parseById (w : List Byte) (len id : Byte) (ps p : Nat) : Except Err (Nat × Reply) :=
  if id = idGetValues then parseGetValues w len ps p
  else if id = idGetValuesSelective then parseSelective w len ps p
  else .error (.unknownPacket id)

/-- `parse(W)`, R121: the first error ends it. -/
def parse (w : List Byte) : Except Err (Nat × Reply) :=
  match rdU8 w 0 with
  | .error e => .error e
  | .ok (start, p0) =>
    if start ≠ startMarker then .error .invalidFrame
    else
      match rdU8 w p0 with
      | .error e => .error e
      | .ok (len, ps) =>
        match rdU8 w ps with
        | .error e => .error e
        | .ok (id, p) => parseById w len id ps p

/-- The response of a parse (R120). -/
def decodeResponse (r : Except Err (Nat × Reply)) : Except Err Response :=
  r.map fun x => .decoded x.1 x.2

/-- FP.DEC W, R120: a pure function of W; it writes no state, whatever the outcome. -/
def execFpDec (window : List Byte) (s : State) : Host.Outcome State Fault Refusal :=
  .next (answer s (decodeResponse (parse window)))

/-- RX.GET_VALUES, R130: the window is START, `len`, id 4, `rest`; the parser is at cursor 3. -/
def execRxGetValues (len : Byte) (rest : List Byte) (s : State) : Host.Outcome State Fault Refusal :=
  .next (answer s (decodeResponse (parseGetValues (startMarker :: len :: idGetValues :: rest) len 2 3)))

/-- RX.GET_VALUES_SELECTIVE, R131: the window is START, `len`, id 50, `rest`; the parser is at cursor 3. -/
def execRxGetValuesSelective (len : Byte) (rest : List Byte) (s : State) : Host.Outcome State Fault Refusal :=
  .next (answer s (decodeResponse (parseSelective (startMarker :: len :: idGetValuesSelective :: rest) len 2 3)))

end Sys2Proof.Machine
end

