-- ==== Sys2Proof/Machine/StreamBuffer.lean ====
section
/-! DEFINITION. The stream buffer: SB.FEED (spec/42_stream_buffer.md R160 to R164) and SB.PULL (R165 to R167). -/

namespace Sys2Proof.Machine

/-- Compaction, R161: the unread bytes are read, then written at the buffer start (spec/20_memory.md R52); RD becomes 0 and WR
their number. -/
def compact (s : State) : Except Fault State :=
  match memRead s s.rd (s.wr - s.rd) with
  | .error f => .error f
  | .ok unread =>
    match memWrite s 0 unread with
    | .error f => .error f
    | .ok s' => .ok { s' with rd := 0, wr := s.wr - s.rd }

/-- Overflow discard, R163: if the buffer is still completely full, both cursors go to 0. -/
def discardIfFull (s : State) : State :=
  if s.wr = s.cfg.cap then { s with rd := 0, wr := 0 } else s

/-- The part of SB.FEED before the copy, R162: compaction, and the discard test after it, exactly when the free tail is
insufficient for all of `data`. -/
def makeRoom (n : Nat) (s : State) : Except Fault State :=
  if s.cfg.cap - s.wr < n then
    match compact s with
    | .error f => .error f
    | .ok s' => .ok (discardIfFull s')
  else .ok s

/-- The copy, R164: as many bytes as fit into the free tail, and their number. -/
def copyIn (data : List Byte) (s : State) : Except Fault (State × Nat) :=
  let k := min data.length (s.cfg.cap - s.wr)
  match memWrite s s.wr (data.take k) with
  | .error f => .error f
  | .ok s' => .ok ({ s' with wr := s.wr + k }, k)

/-- SB.FEED data on the buffer, R160: the state after it and the count it answers. -/
def feed (data : List Byte) (s : State) : Except Fault (State × Nat) :=
  match makeRoom data.length s with
  | .error f => .error f
  | .ok s' => copyIn data s'

/-- The loop of SB.PULL, R165, with the number of unread bytes WR - RD as its bound: each turn either answers or raises RD by
one. At 0 the unread region is exhausted (log 14). -/
def pullLoop : Nat → State → Except Fault (State × Option Reply)
  | 0, s => .ok (s, none)
  | n + 1, s =>
    match memRead s s.rd (n + 1) with
    | .error f => .error f
    | .ok window =>
      match parse window with
      | .ok (consumed, reply) => .ok ({ s with rd := s.rd + consumed }, some reply)
      | .error .incompleteData => .ok (s, none)
      | .error (.checksumMismatch _ _) => pullLoop n { s with rd := s.rd + 1 }
      | .error (.unknownPacket _) => pullLoop n { s with rd := s.rd + 1 }
      | .error .invalidFrame => pullLoop n { s with rd := s.rd + 1 }
      | .error .bufferTooSmall => pullLoop n { s with rd := s.rd + 1 } -- `parse` never raises it (R205)

/-- SB.PULL on the buffer, R165. -/
def pull (s : State) : Except Fault (State × Option Reply) := pullLoop (s.wr - s.rd) s

/-- SB.FEED data, R160: it has no error response (R169). -/
def execSbFeed (data : List Byte) (s : State) : Host.Outcome State Fault Refusal :=
  match feed data s with
  | .error f => .fault f
  | .ok (s', k) => .next (respond s' (.copied k))

/-- SB.PULL, R165: it never answers an error (R209). -/
def execSbPull (s : State) : Host.Outcome State Fault Refusal :=
  match pull s with
  | .error f => .fault f
  | .ok (s', reply) => .next (respond s' (.pulled reply))

end Sys2Proof.Machine
end

