-- ==== Sys2Proof/Machine/Dispatch.lean ====
section
/-! DEFINITION. One arm per instruction: each calls its own meaning. -/

namespace Sys2Proof.Machine

def exec (i : Instr) (s : State) : Host.Outcome State Fault Refusal :=
  match i with
  | .crcClr => Sys2Proof.Machine.execCrcClr s
  | .crcUpd b => Sys2Proof.Machine.execCrcUpd b s
  | .crcRd => Sys2Proof.Machine.execCrcRd s
  | .fpDec window => Sys2Proof.Machine.execFpDec window s
  | .sbFeed data => Sys2Proof.Machine.execSbFeed data s
  | .sbPull => Sys2Proof.Machine.execSbPull s
  | .fbEnc cmd dcap => Sys2Proof.Machine.execFbEnc cmd dcap s
  | .rxGetValues len rest => Sys2Proof.Machine.execRxGetValues len rest s
  | .rxGetValuesSelective len rest => Sys2Proof.Machine.execRxGetValuesSelective len rest s
  | .txGetValues dcap => Sys2Proof.Machine.execTxGetValues dcap s
  | .txSetCurrent raw dcap => Sys2Proof.Machine.execTxSetCurrent raw dcap s
  | .txSetRpm rpm dcap => Sys2Proof.Machine.execTxSetRpm rpm dcap s
  | .txSetHandbrake raw dcap => Sys2Proof.Machine.execTxSetHandbrake raw dcap s
  | .txForwardCan target inner dcap => Sys2Proof.Machine.execTxForwardCan target inner dcap s
  | .txGetValuesSelective mask dcap => Sys2Proof.Machine.execTxGetValuesSelective mask dcap s

end Sys2Proof.Machine
end

