-- ==== Sys2Proof/Machine/Step.lean ====
section
/-! DEFINITION. One step of the block: take the next input, decode it, run it (spec/00_scope.md R9, R10; logs 1, 6). -/

namespace Sys2Proof.Machine

/-- One step. Without an input nothing changes: "between two host operations no state changes" (R9). A reset acts at once
and gives no response (spec/70_reset_and_hazards.md R230, R231). A message is decoded and its instruction runs on the state
without that input; a message that spells none is refused (spec/30_encoding.md R86). -/
def step (s : State) : Host.Outcome State Fault Refusal :=
  match nextInput s with
  | none => .next s
  | some (.reset, s') => .next (applyReset s')
  | some (.message channel bytes, s') =>
    match decode channel bytes with
    | .error why => .refused (.undecoded why)
    | .ok i => exec i s'

/-- The state in which the host presents the instruction of a table row's bits (every other operand bit 0) and nothing else:
the input that `step` takes next. There is no program counter to place it at (spec/10_state.md R26, log 6). -/
def State.withFetchWord (s : State) (nbits w : Nat) : State :=
  { s with inputs := [.message (tableMessage nbits w).1 (tableMessage nbits w).2] }

end Sys2Proof.Machine
end

