-- ==== Sys2Proof/Machine/HostSide.lean ====
section
/-! DEFINITION. What the host does with the block: sequences of operations, the pseudo-operations CRC.OF, SB.FEEDALL and
SB.DRAIN (spec/30_encoding.md R88), and the scaling of values (R78, R79, spec/43_frame_builder.md R191; log 15). None of it is a
hardware operation. -/

namespace Sys2Proof.Machine

/-- Operations issued strictly one after another (spec/00_scope.md R10); the first fault or refusal ends them. -/
def execAll : List Instr → State → Host.Outcome State Fault Refusal
  | [], s => .next s
  | i :: rest, s =>
    match exec i s with
    | .next t => execAll rest t
    | .fault f => .fault f
    | .refused r => .refused r

/-- `CRC.OF bytes`, R88. -/
def crcOf (bytes : List Byte) : List Instr := .crcClr :: (bytes.map .crcUpd ++ [.crcRd])

/-- The count that the last SB.FEED answered; 0 if the last response is another's. -/
def lastCopied (s : State) : Nat :=
  match s.responses.getLast? with
  | some (.copied k) => k
  | _ => 0

/-- `SB.FEEDALL data`, R88: feed, drop what was copied, and repeat until nothing is left. `fuel` bounds the calls. -/
def feedAllLoop : Nat → List Byte → State → Host.Outcome State Fault Refusal
  | 0, _, s => .next s
  | fuel + 1, data, s =>
    match exec (.sbFeed data) s with
    | .next t => if (data.drop (lastCopied t)).isEmpty then .next t else feedAllLoop fuel (data.drop (lastCopied t)) t
    | .fault f => .fault f
    | .refused r => .refused r

/-- SB.FEEDALL with as many calls as it can need: each stores at least one byte (spec/42_stream_buffer.md R164). -/
def feedAll (data : List Byte) (s : State) : Host.Outcome State Fault Refusal :=
  feedAllLoop (data.length + 1) data s

/-- Whether the last SB.PULL answered None. -/
def lastPullWasNone (s : State) : Bool := decide (s.responses.getLast? = some (.pulled none))

/-- `SB.DRAIN`, R88: pull until the first None. `fuel` bounds the calls. -/
def drainLoop : Nat → State → Host.Outcome State Fault Refusal
  | 0, s => .next s
  | fuel + 1, s =>
    match exec .sbPull s with
    | .next t => if lastPullWasNone t then .next t else drainLoop fuel t
    | .fault f => .fault f
    | .refused r => .refused r

/-- SB.DRAIN with as many calls as it can need: each Some consumes a byte or more. -/
def drain (s : State) : Host.Outcome State Fault Refusal := drainLoop (s.wr - s.rd + 1) s

/-- Truncation toward zero, R79. -/
def truncTowardZero (x : ℚ) : ℤ := if 0 ≤ x then ⌊x⌋ else ⌈x⌉

/-- The integer the host gives the block for a value and a scale, R79: `trunc(x × scale)`, as exact arithmetic. What a host
does that forms the product in floating point is outside the block (spec/93_implementation_defined.md U4). -/
def hostRaw (x : ℚ) (scale : Nat) : ℤ := truncTowardZero (x * scale)

/-- The value of a raw field for the host, R78: `raw / scale`. -/
def hostValue (raw : ℤ) (scale : Nat) : ℚ := raw / scale

end Sys2Proof.Machine
end

