-- ==== Sys2Proof/Safety.lean ====
section
/-! DEFINITION. The terms claims use: the invariant of the stream buffer (spec/10_state.md R24), the unread region and the
abstract stream buffer (spec/42_stream_buffer.md R170), valid frames (spec/30_encoding.md R60, R72 to R77), and the order of
the parser's verdicts (spec/41_frame_parser.md R136). No meaning uses anything of this file. -/

namespace Sys2Proof.Machine

/-! ## The invariant -/

/-- The invariant of R24, 0 <= RD <= WR <= CAP, with what the model adds: admissible parameters (spec/00_scope.md R7), BUF in
its canonical form and inside CAP, and every byte of the unread region written. -/
abbrev State.Inv (s : State) : Prop :=
  s.cfg.WellFormed ∧ s.rd ≤ s.wr ∧ s.wr ≤ s.cfg.cap ∧ Memory.wf s.buf ∧ (∀ c ∈ s.buf, c.1 < s.cfg.cap) ∧
    ∀ i, i < s.wr - s.rd → (readCell s.buf (s.rd + i)).isSome = true

/-- What the request port of a block with these parameters can express: no descriptor deeper than MAXNEST
(spec/30_encoding.md R84). -/
def admits (c : Config) : Instr → Bool
  | .crcClr => true
  | .crcUpd _ => true
  | .crcRd => true
  | .fpDec _ => true
  | .sbFeed _ => true
  | .sbPull => true
  | .fbEnc cmd _ => decide (cmd.depth ≤ c.maxNest.val)
  | .rxGetValues _ _ => true
  | .rxGetValuesSelective _ _ => true
  | .txGetValues _ => true
  | .txSetCurrent _ _ => true
  | .txSetRpm _ _ => true
  | .txSetHandbrake _ _ => true
  | .txForwardCan _ inner _ => decide (inner.depth + 1 ≤ c.maxNest.val)
  | .txGetValuesSelective _ _ => true

/-! ## The abstract stream buffer, R170 -/

/-- U, the unread byte sequence BUF[RD..WR). -/
def unread (s : State) : Option (List Byte) := readCells s.buf s.rd (s.wr - s.rd)

/-- SB.FEED on the unread bytes alone, R170: the next U and the count. -/
def absFeed (cap : Nat) (u data : List Byte) : List Byte × Nat :=
  let u0 := if u.length = cap ∧ 1 ≤ data.length then [] else u
  let k := min data.length (cap - u0.length)
  (u0 ++ data.take k, k)

/-- SB.PULL on the unread bytes alone, R170: the next U and the answer. -/
def absPull : List Byte → List Byte × Option Reply
  | [] => ([], none)
  | b :: rest =>
    match parse (b :: rest) with
    | .ok (consumed, reply) => ((b :: rest).drop consumed, some reply)
    | .error .incompleteData => (b :: rest, none)
    | .error _ => absPull rest

/-- A definite failure: neither a frame nor IncompleteData. -/
def rejected (w : List Byte) : Prop :=
  ∃ e, parse w = .error e ∧ e ≠ .incompleteData

/-! ## Valid frames -/

/-- The frame around a payload, R60: START, LENGTH, PAYLOAD, CHECKSUM high byte first, END. -/
def wireFrame (payload : List Byte) : List Byte :=
  startMarker :: BitVec.ofNat 8 payload.length :: (payload ++ bytesBe2 (crc16 payload) ++ [endMarker])

/-- The payload of a command, R72 to R75. -/
def cmdPayload : Cmd → List Byte
  | .getValues => [idGetValues]
  | .setCurrent raw => idSetCurrent :: bytesBe4 raw
  | .setRpm rpm => idSetRpm :: bytesBe4 rpm
  | .setHandbrake raw => idSetHandbrake :: bytesBe4 raw
  | .getValuesSelective mask => idGetValuesSelective :: bytesBe4 mask
  | .forwardCan target inner => idForwardCan :: target :: cmdPayload inner

/-- The value range of a wire type, R65. -/
def inRange : WireType → Int → Prop
  | .u8, x => 0 ≤ x ∧ x < 256
  | .i16, x => -32768 ≤ x ∧ x < 32768
  | .i32, x => -2147483648 ≤ x ∧ x < 2147483648
  | .u32, x => 0 ≤ x ∧ x < 4294967296

/-- The bytes of a raw value on the wire, R44, R65. -/
def rawBytes : WireType → Int → List Byte
  | .u8, x => [BitVec.ofInt 8 x]
  | .i16, x => bytesBe2 (BitVec.ofInt 16 x)
  | .i32, x => bytesBe4 (s2u32 x)
  | .u32, x => bytesBe4 (BitVec.ofInt 32 x)

/-- The bytes of some fields of a record, in the order given. -/
def fieldsBytes (v : Values) (fs : List Field) : List Byte :=
  fs.flatMap fun f => rawBytes (fieldType f) (getField v f)

/-- The payload of a GetValues reply, R76. -/
def getValuesPayload (v : Values) : List Byte := idGetValues :: fieldsBytes v allFields

/-- The payload of a selective reply, R77. -/
def selectivePayload (mask : Word) (v : Values) : List Byte :=
  idGetValuesSelective :: (bytesBe4 mask ++ fieldsBytes v (selectedFields mask))

/-- The record a selective reply delivers: the selected fields of `v`, every other field 0 (R77, R78). -/
def carried (mask : Word) (v : Values) : Values :=
  (selectedFields mask).foldl (fun r f => setField r f (getField v f)) zeroValues

/-- Every field of a record is in the range of its wire type. -/
def fieldsInRange (v : Values) : Prop := ∀ f, inRange (fieldType f) (getField v f)

/-- The offset of a field in the payload of a GetValues reply, the column of R76. -/
def fieldOffset : Field → Nat
  | .tempMosfet => 1
  | .tempMotor => 3
  | .avgCurrentMotor => 5
  | .avgCurrentInput => 9
  | .avgCurrentD => 13
  | .avgCurrentQ => 17
  | .dutyCycle => 21
  | .rpm => 23
  | .voltageIn => 27
  | .ampHours => 29
  | .ampHoursCharged => 33
  | .wattHours => 37
  | .wattHoursCharged => 41
  | .tachometer => 45
  | .tachometerAbs => 49
  | .faultCode => 53
  | .pidPos => 54
  | .controllerId => 58
  | .tempMosfet1 => 59
  | .tempMosfet2 => 61
  | .tempMosfet3 => 63
  | .avgVoltageD => 65
  | .avgVoltageQ => 69
  | .status => 73

/-- The raw value of a wire type that stands at byte `p` of a window, R65. -/
def rawAt : WireType → List Byte → Nat → Int
  | .u8, w, p => ((w.getD p 0#8).toNat : Int)
  | .i16, w, p => u2s16 (be2 (w.getD p 0#8) (w.getD (p + 1) 0#8))
  | .i32, w, p => u2s32 (be4 (w.getD p 0#8) (w.getD (p + 1) 0#8) (w.getD (p + 2) 0#8) (w.getD (p + 3) 0#8))
  | .u32, w, p => ((be4 (w.getD p 0#8) (w.getD (p + 1) 0#8) (w.getD (p + 2) 0#8) (w.getD (p + 3) 0#8)).toNat : Int)

/-! ## The order of verdicts, R136 -/

/-- The mask of a selective reply at the start of a window: bytes 3 to 6. -/
def maskOf (w : List Byte) : Word := be4 (w.getD 3 0#8) (w.getD 4 0#8) (w.getD 5 0#8) (w.getD 6 0#8)

/-- L', the payload length that the id and the mask of a window call for (R66, R137). -/
def calledLength (w : List Byte) : Nat :=
  if w.getD 2 0#8 = idGetValues then 74 else 5 + fieldsSize (selectedFields (maskOf w))

/-- The table of R136, with the consumed length and the kind as the success. -/
def verdict (w : List Byte) : Except Err (Nat × ReplyKind) :=
  if w.length = 0 then .error .incompleteData
  else if w.getD 0 0#8 ≠ startMarker then .error .invalidFrame
  else if w.length < 3 then .error .incompleteData
  else if w.getD 2 0#8 ≠ idGetValues ∧ w.getD 2 0#8 ≠ idGetValuesSelective then .error (.unknownPacket (w.getD 2 0#8))
  else if w.length < 2 + calledLength w then .error .incompleteData
  else if calledLength w ≠ (w.getD 1 0#8).toNat then .error .invalidFrame
  else if w.length < calledLength w + 5 then .error .incompleteData
  else if be2 (w.getD (calledLength w + 2) 0#8) (w.getD (calledLength w + 3) 0#8) ≠
      crc16 ((w.drop 2).take (calledLength w)) then
    .error (.checksumMismatch (be2 (w.getD (calledLength w + 2) 0#8) (w.getD (calledLength w + 3) 0#8))
      (crc16 ((w.drop 2).take (calledLength w))))
  else if w.getD (calledLength w + 4) 0#8 ≠ endMarker then .error .invalidFrame
  else .ok (calledLength w + 5,
    if w.getD 2 0#8 = idGetValues then .getValues else .getValuesSelective)

/-! ## Sequences -/

/-- The bytes that the CRC.UPD operations of a sequence give, in order (spec/40_crc.md R109). -/
def updBytes : List Instr → List Byte
  | [] => []
  | .crcUpd b :: rest => b :: updBytes rest
  | _ :: rest => updBytes rest

/-- Feed a chunk, then pull once. -/
def feedThenPull (chunk : List Byte) : List Instr := [.sbFeed chunk, .sbPull]

end Sys2Proof.Machine
end

