-- ==== Sys2Proof/Certificates/Slice0/Obligations.lean ====
section
/-! DEFINITION. The statements for the provers. A docstring names the rule of spec/ it formalises; where a clause rests on a
decision of the spec or a choice of the model, it names the decision (D<n> of spec/92_eei_decisions.md) or the log entry. -/

open Sys2Proof Sys2Proof.Machine

/-! ## The machine -/

/-- After reset CRCACC, RD and WR are 0, nothing is unread, and the first SB.PULL answers None (decision D16). That no byte of
BUF has a value, and that no input and no response is recorded, is the model's choice (logs 6, 7, 8). -/
def Obligations.ResetLeavesCursorsAndAccumulatorZero : Prop :=
  State.reset.crcAcc = 0x0000#16 ∧ State.reset.rd = 0 ∧ State.reset.wr = 0 ∧ unread State.reset = some [] ∧
    (∀ a, readCell State.reset.buf a = none) ∧ State.reset.inputs = [] ∧ State.reset.responses = [] ∧
    exec .sbPull State.reset = .next { State.reset with responses := [.pulled none] }

/-- The invariant of R24, with the model's canonical form of BUF (log 8), holds after reset, whatever the parameters of the
block are. -/
def Obligations.ResetMeetsInvariant : Prop := State.reset.Inv

/-- Every step keeps the invariant of R24 (with the model's canonical form of BUF, log 8) and the parameters of the block
(R28), from every state that meets it. -/
def Obligations.EveryStepKeepsInvariant : Prop :=
  ∀ s t : State, s.Inv → step s = .next t → t.Inv ∧ t.cfg = s.cfg

/-- When the next input is a message whose bytes decode to a well-formed instruction, the step is that instruction on the
state without that input (decision D1; messages and inputs are the model's, logs 1 and 6). -/
def Obligations.StepRunsDecodedInstruction : Prop :=
  ∀ (s : State) (channel : Channel) (bytes : List Byte) (rest : List Input) (i : Instr),
    s.inputs = .message channel bytes :: rest → decode channel bytes = .ok i → i.wellFormed = true →
      step s = exec i { s with inputs := rest }

/-- Without an input a step changes nothing: the block has no step of its own (decision D1; log 6). -/
def Obligations.IdleStepChangesNothing : Prop :=
  ∀ s : State, s.inputs = [] → step s = .next s

/-- A reset input puts CRCACC, RD and WR to 0 and gives no response (decision D16); BUF is forgotten and the model's own
records stay (the model's choice, log 9). -/
def Obligations.ResetInputActsAtOnce : Prop :=
  ∀ (s : State) (rest : List Input), s.inputs = .reset :: rest →
    step s = .next ⟨0x0000#16, [], 0, 0, s.cfg, rest, s.responses⟩

/-- A request whose number is none of the seven is refused by name, whatever follows the number (decision D21; that a request
is bytes is the model's choice, log 1). -/
def Obligations.UnassignedNumberIsRefused : Prop :=
  ∀ (s : State) (number : Byte) (operands : List Byte) (rest : List Input),
    s.inputs = .message .request (number :: operands) :: rest →
    number ∉ [0x00#8, 0x01#8, 0x02#8, 0x10#8, 0x20#8, 0x21#8, 0x30#8] →
      step s = .refused (.undecoded (.noSuchOperation number))

/-- One operation gives exactly one response and leaves the parameters of the block and the host's other inputs alone
(decision D1; `inputs` and `responses` are the model's, logs 6 and 7). -/
def Obligations.OneResponsePerOperation : Prop :=
  ∀ (i : Instr) (s t : State), exec i s = .next t →
    (∃ r, t.responses = s.responses ++ [r]) ∧ t.cfg = s.cfg ∧ t.inputs = s.inputs

/-- From every state that meets the invariant every operation that the request port can express completes: no fault and no
refusal is reached (R42's bound is met at each use). -/
def Obligations.AdmittedOperationsComplete : Prop :=
  ∀ (i : Instr) (s : State), s.Inv → admits s.cfg i = true → ∃ t, exec i s = .next t

/-- An error response changes nothing but the responses: the state after it equals the state before (R207). -/
def Obligations.ErrorResponsesChangeNothing : Prop :=
  ∀ (i : Instr) (s t : State) (e : Err), exec i s = .next t → t.responses = s.responses ++ [.error e] →
    t = { s with responses := s.responses ++ [.error e] }

/-- The read and write sets of CRC.RD, FP.DEC, FB.ENC and the eight frames: they write no state, whatever the outcome. -/
def Obligations.PureOperationsOnlyRespond : Prop :=
  ∀ (i : Instr) (s t : State), i ≠ .crcClr → (∀ b, i ≠ .crcUpd b) → (∀ d, i ≠ .sbFeed d) → i ≠ .sbPull →
    exec i s = .next t → ∃ r, t = { s with responses := s.responses ++ [r] }

/-- No response of a sequence of operations depends on a byte of BUF outside the unread region, nor on where the cursors
stand: two states with the same CRCACC, unread bytes and record give the same responses to the same operations (decision
D19). -/
def Obligations.ResponsesDependOnUnreadBytesOnly : Prop :=
  ∀ (ops : List Instr) (s s' t : State), s.Inv → s'.Inv → s'.cfg = s.cfg → s'.crcAcc = s.crcAcc →
    unread s' = unread s → s'.responses = s.responses → execAll ops s = .next t →
      ∃ t', execAll ops s' = .next t' ∧ t'.responses = t.responses ∧ t'.crcAcc = t.crcAcc ∧ unread t' = unread t

/-! ## Encoding -/

/-- Decoding the encoding of a well-formed instruction gives it back, with every operand at every value (the message form is
the model's, logs 1 to 4). -/
def Obligations.DecodeOfEncodeIsIdentity : Prop :=
  ∀ i : Instr, i.wellFormed = true → decode (encode i).1 (encode i).2 = .ok i

/-- The decoder answers well-formed instructions only. -/
def Obligations.DecodedInstructionsAreWellFormed : Prop :=
  ∀ (channel : Channel) (bytes : List Byte) (i : Instr), decode channel bytes = .ok i → i.wellFormed = true

/-- Words written out from the spec decode to what they stand for: all seven operation numbers and all eight frame selectors,
each with operands after it (the numbers are decision D2; how operands follow is the model's choice, logs 1 to 5). -/
def Obligations.SpecWordsDecode : Prop :=
  (decode .request [0x00#8] = .ok .crcClr ∧ (∀ b, decode .request [0x01#8, b] = .ok (.crcUpd b)) ∧
    decode .request [0x02#8] = .ok .crcRd ∧ (∀ w, decode .request (0x10#8 :: w) = .ok (.fpDec w)) ∧
    (∀ data, decode .request (0x20#8 :: data) = .ok (.sbFeed data)) ∧ decode .request [0x21#8] = .ok .sbPull ∧
    decode .request [0x30#8, 2#8, 0x00#8, 0x00#8, 0x0B#8, 0xB8#8, 0x0A#8] = .ok (.fbEnc (.setRpm 3000#32) 10)) ∧
  (∀ (len : Byte) (rest : List Byte),
    decode .rx (0x02#8 :: len :: 0x04#8 :: rest) = .ok (.rxGetValues len rest) ∧
    decode .rx (0x02#8 :: len :: 0x32#8 :: rest) = .ok (.rxGetValuesSelective len rest)) ∧
  decode .tx [0x02#8, 0x01#8, 0x04#8, 0x06#8] = .ok (.txGetValues 6) ∧
  decode .tx [0x02#8, 0x05#8, 0x06#8, 0x00#8, 0x00#8, 0x05#8, 0xDC#8, 0x0A#8] = .ok (.txSetCurrent 1500#32 10) ∧
  decode .tx [0x02#8, 0x05#8, 0x08#8, 0x00#8, 0x00#8, 0x0B#8, 0xB8#8, 0x0A#8] = .ok (.txSetRpm 3000#32 10) ∧
  decode .tx [0x02#8, 0x05#8, 0x0A#8, 0x00#8, 0x00#8, 0x09#8, 0xC4#8, 0x0A#8] = .ok (.txSetHandbrake 2500#32 10) ∧
  (∀ len : Byte, decode .tx [0x02#8, len, 0x22#8, 0x05#8, 0#8, 0x08#8] = .ok (.txForwardCan 5#8 .getValues 8)) ∧
  decode .tx [0x02#8, 0x05#8, 0x32#8, 0x80#8, 0x00#8, 0x00#8, 0x01#8, 0x0A#8] =
    .ok (.txGetValuesSelective 0x80000001#32 10)

/-! ## The CRC unit -/

/-- CRC.CLR: CRCACC <- 0x0000, response Ok(), nothing else (decision D4). -/
def Obligations.CrcClrClearsAccumulator : Prop :=
  ∀ s : State, exec .crcClr s = .next { s with crcAcc := 0x0000#16, responses := s.responses ++ [.done] }

/-- CRC.UPD b: CRCACC <- crc_step(CRCACC, b) in the table form, response Ok(), nothing else (decision D4). -/
def Obligations.CrcUpdFoldsOneByteByTable : Prop :=
  ∀ (b : Byte) (s : State), exec (.crcUpd b) s =
    .next { s with
      crcAcc := (s.crcAcc <<< 8) ^^^ crcTable.getD ((s.crcAcc.extractLsb' 8 8 ^^^ b).toNat) 0x0000#16,
      responses := s.responses ++ [.done] }

/-- CRC.RD: response Ok(CRCACC); reading does not clear the accumulator and nothing else changes (decision D4). -/
def Obligations.CrcRdReadsWithoutClearing : Prop :=
  ∀ s : State, exec .crcRd s = .next { s with responses := s.responses ++ [.checksum s.crcAcc] }

/-- The 256 entries of the table are the steps from 0, and the check value of the nine bytes "123456789" is 0x31C3 (general
knowledge G1 of the spec). -/
def Obligations.CrcTableAndCheckValue : Prop :=
  crcTable.length = 256 ∧ (∀ b : Byte, crcTable.getD b.toNat 0x0000#16 = crcStep 0x0000#16 b) ∧
    crc16 [0x31#8, 0x32#8, 0x33#8, 0x34#8, 0x35#8, 0x36#8, 0x37#8, 0x38#8, 0x39#8] = 0x31C3#16

/-- Residue: a sequence followed by its own checksum, high byte first, has checksum 0. -/
def Obligations.CrcResidueIsZero : Prop :=
  ∀ s : List Byte, crc16 (s ++ bytesBe2 (crc16 s)) = 0x0000#16

/-- Linearity: the checksum of the bytewise exclusive-or of two sequences of equal length. -/
def Obligations.CrcIsLinear : Prop :=
  ∀ a b : List Byte, a.length = b.length → crc16 (List.zipWith (· ^^^ ·) a b) = crc16 a ^^^ crc16 b

/-- Leading zero bytes are invisible. -/
def Obligations.CrcIgnoresLeadingZeros : Prop :=
  ∀ (n : Nat) (s : List Byte), crc16 (List.replicate n 0#8 ++ s) = crc16 s

/-- The accumulation law: after CRC.CLR, or from CRCACC = 0 as after reset, and with any other operations in between but
CRC.CLR, CRCACC is the checksum of the bytes given to CRC.UPD, in order (decision D4). -/
def Obligations.AccumulatorHoldsChecksumOfUpdates : Prop :=
  ∀ (ops : List Instr) (s : State), s.Inv → (∀ i ∈ ops, i ≠ .crcClr ∧ admits s.cfg i = true) →
    (∃ t, execAll (.crcClr :: ops) s = .next t ∧ t.crcAcc = crc16 (updBytes ops)) ∧
      (s.crcAcc = 0x0000#16 → ∃ t, execAll ops s = .next t ∧ t.crcAcc = crc16 (updBytes ops))

/-- No operation but CRC.CLR and CRC.UPD writes CRCACC (decision D4). -/
def Obligations.OnlyCrcOperationsWriteAccumulator : Prop :=
  ∀ (i : Instr) (s t : State), i ≠ .crcClr → (∀ b, i ≠ .crcUpd b) → exec i s = .next t → t.crcAcc = s.crcAcc

/-- The pseudo-operation CRC.OF answers the checksum of its bytes, whatever CRCACC held before (decision D2). -/
def Obligations.CrcOfAnswersChecksum : Prop :=
  ∀ (bytes : List Byte) (s : State), execAll (crcOf bytes) s =
    .next { s with crcAcc := crc16 bytes,
                   responses := s.responses ++ List.replicate (bytes.length + 1) .done ++ [.checksum (crc16 bytes)] }

/-! ## The frame parser -/

/-- FP.DEC W answers parse(W) and writes no state, whatever the outcome; a parse never answers BufferTooSmall; the operation's
number is 0x10; the document's example window is an unknown packet (R120). -/
def Obligations.FpDecAnswersParseAndWritesNothing : Prop :=
  (∀ (w : List Byte) (s : State), exec (.fpDec w) s =
    .next { s with responses := s.responses ++
      [match parse w with | .ok (consumed, reply) => .decoded consumed reply | .error e => .error e] }) ∧
  (∀ w : List Byte, parse w ≠ .error .bufferTooSmall) ∧
  (∀ w : List Byte, (encode (.fpDec w)).2.head? = some 0x10#8) ∧
  parse [2#8, 3#8, 222#8, 4#8, 0#8, 178#8, 81#8, 3#8] = .error (.unknownPacket 222#8)

/-- Step 1 (R122): an empty window is IncompleteData; a first byte that is not 0x02 is InvalidFrame whatever follows and
however short the window is; a parse succeeds only at a byte equal to 0x02. -/
def Obligations.StartByteIsCheckedFirst : Prop :=
  (∀ s : State, exec (.fpDec []) s = .next { s with responses := s.responses ++ [.error .incompleteData] }) ∧
  (∀ (b : Byte) (rest : List Byte) (s : State), b ≠ 0x02#8 →
    exec (.fpDec (b :: rest)) s = .next { s with responses := s.responses ++ [.error .invalidFrame] }) ∧
  (∀ (w : List Byte) (x : Nat × Reply), parse w = .ok x → w.head? = some 0x02#8)

/-- Step 3: an id other than 4 and 50 is UnknownPacket as soon as it is read, whatever LENGTH and the rest are; 4 and 50 go to
the two reply routines, the instructions RX.GET_VALUES and RX.GET_VALUES_SELECTIVE (decision D11; log 4). -/
def Obligations.CommandIdSelectsRoutine : Prop :=
  (∀ (len id : Byte) (rest : List Byte) (s : State), id ≠ 4#8 → id ≠ 50#8 →
    exec (.fpDec (0x02#8 :: len :: id :: rest)) s =
      .next { s with responses := s.responses ++ [.error (.unknownPacket id)] }) ∧
  (∀ (len : Byte) (rest : List Byte) (s : State),
    exec (.fpDec (0x02#8 :: len :: 4#8 :: rest)) s = exec (.rxGetValues len rest) s ∧
    exec (.fpDec (0x02#8 :: len :: 50#8 :: rest)) s = exec (.rxGetValuesSelective len rest) s)

/-- The parser's answer for every window is the first line of the table of verdicts that applies. That table rests on decisions
of the spec that log 13 follows: END is fetched before the checksum verdict (D7, the alternative of U6 excluded), expected is
the field and actual the computed checksum (D8), a GetValues payload has 74 bytes (D9), the known ids are 4 and 50 (D11), and
the mask bits select their fields (D10). -/
def Obligations.ParseFollowsOrderOfVerdicts : Prop :=
  ∀ w : List Byte, (parse w).map (fun x => (x.1, x.2.kind)) = verdict w

/-- RX.GET_VALUES: a frame with LENGTH 74, the 24 fields in their order, its checksum and END is accepted with those values,
whatever follows it, and consumes 79 bytes (temp_motor is 16 bits wide by decision D9). -/
def Obligations.GetValuesReplyIsDelivered : Prop :=
  ∀ (v : Values) (tail : List Byte) (s : State), fieldsInRange v →
    exec (.rxGetValues 74#8 (fieldsBytes v allFields ++ (bytesBe2 (crc16 (getValuesPayload v)) ++ 0x03#8 :: tail))) s =
      .next { s with responses := s.responses ++ [.decoded 79 ⟨.getValues, v⟩] }

/-- RX.GET_VALUES_SELECTIVE: for every mask, a frame with the selected fields in bit order, the LENGTH they call for, its
checksum and END is accepted; the selected fields are delivered and every other field is 0; mask bits 22 to 31 add nothing
(the bit numbers are decision D10). -/
def Obligations.SelectiveReplyIsDelivered : Prop :=
  ∀ (mask : Word) (v : Values) (tail : List Byte) (s : State), fieldsInRange v →
    exec (.rxGetValuesSelective (BitVec.ofNat 8 (5 + fieldsSize (selectedFields mask)))
        (bytesBe4 mask ++ (fieldsBytes v (selectedFields mask) ++
          (bytesBe2 (crc16 (selectivePayload mask v)) ++ 0x03#8 :: tail)))) s =
      .next { s with responses := s.responses ++
        [.decoded (10 + fieldsSize (selectedFields mask)) ⟨.getValuesSelective, carried mask v⟩] }

/-- Where the fields of an accepted reply come from: in a GetValues reply each field is read at its offset; in a selective
reply a selected field is read after the selected fields before it, and every other field is 0 (decisions D9, D10). -/
def Obligations.DeliveredFieldsStandAtTheirOffsets : Prop :=
  ∀ (w : List Byte) (consumed : Nat) (reply : Reply), parse w = .ok (consumed, reply) → ∀ f : Field,
    (reply.kind = .getValues → getField reply.values f = rawAt (fieldType f) w (2 + fieldOffset f)) ∧
    (reply.kind = .getValuesSelective → (maskOf w).getLsbD (fieldBit f) = true →
      getField reply.values f = rawAt (fieldType f) w
        (7 + fieldsSize ((selectedFields (maskOf w)).takeWhile fun g => decide (g ≠ f)))) ∧
    (reply.kind = .getValuesSelective → (maskOf w).getLsbD (fieldBit f) = false → getField reply.values f = 0)

/-- Every field of a delivered record is in the range of its wire type. -/
def Obligations.DeliveredFieldsAreInRange : Prop :=
  ∀ (w : List Byte) (consumed : Nat) (reply : Reply), parse w = .ok (consumed, reply) → fieldsInRange reply.values

/-- A success means the window begins with a whole frame, START, LENGTH = payload length, payload, its checksum high byte
first, END; consumed is that frame's length, between 10 and 83. -/
def Obligations.SuccessMeansWholeFrame : Prop :=
  ∀ (w : List Byte) (consumed : Nat) (reply : Reply), parse w = .ok (consumed, reply) →
    10 ≤ consumed ∧ consumed ≤ 83 ∧ ∃ payload tail, w = wireFrame payload ++ tail ∧ consumed = payload.length + 5 ∧
      (payload.head? = some 4#8 ∨ payload.head? = some 50#8)

/-- Bytes after the frame, or after the point where a parse failed for good, do not influence the answer. -/
def Obligations.LaterBytesDoNotChangeVerdict : Prop :=
  ∀ w more : List Byte, parse w ≠ .error .incompleteData → parse (w ++ more) = parse w

/-- Every proper prefix of a valid frame is IncompleteData. -/
def Obligations.ProperPrefixIsIncomplete : Prop :=
  ∀ (f : List Byte) (reply : Reply) (n : Nat), parse f = .ok (f.length, reply) → n < f.length →
    parse (f.take n) = .error .incompleteData

/-- A valid frame with one part changed: another START, LENGTH or END byte is InvalidFrame; another CHECKSUM field is
ChecksumMismatch with the field as expected and the checksum of the payload as actual (the naming is decision D8). -/
def Obligations.MutatedFrameIsRejected : Prop :=
  ∀ (f : List Byte) (reply : Reply), parse f = .ok (f.length, reply) →
    (∀ b : Byte, b ≠ 0x02#8 → parse (f.set 0 b) = .error .invalidFrame) ∧
    (∀ b : Byte, b ≠ f.getD 1 0#8 → parse (f.set 1 b) = .error .invalidFrame) ∧
    (∀ b : Byte, b ≠ 0x03#8 → parse (f.set (f.length - 1) b) = .error .invalidFrame) ∧
    (∀ h l : Byte, be2 h l ≠ crc16 ((f.drop 2).take (f.length - 5)) →
      parse ((f.set (f.length - 3) h).set (f.length - 2) l) =
        .error (.checksumMismatch (be2 h l) (crc16 ((f.drop 2).take (f.length - 5)))))

/-! ## The stream buffer -/

/-- SB.FEED from every state that meets the invariant: it completes with the count of the copy; with a sufficient free tail
RD stays and WR rises by the whole length; otherwise the unread bytes are compacted to 0, or discarded if they fill BUF, and
the copy follows them (the place of the discard test is decision D17). -/
def Obligations.SbFeedStoresAndMovesCursors : Prop :=
  ∀ (data u : List Byte) (s : State), s.Inv → unread s = some u →
    ∃ t, exec (.sbFeed data) s = .next t ∧
      t.responses = s.responses ++ [.copied (absFeed s.cfg.cap u data).2] ∧
      unread t = some (absFeed s.cfg.cap u data).1 ∧
      t.crcAcc = s.crcAcc ∧ t.cfg = s.cfg ∧ t.inputs = s.inputs ∧
      (data.length ≤ s.cfg.cap - s.wr → t.rd = s.rd ∧ t.wr = s.wr + data.length) ∧
      (s.cfg.cap - s.wr < data.length → t.rd = 0 ∧ t.wr = (absFeed s.cfg.cap u data).1.length)

/-- The frame of SB.FEED: with a sufficient free tail only BUF[WR..WR+n) is written, with data; otherwise only the compacted
region and the copied bytes above it (at 0 after a discard). CRCACC, the parameters and the inputs stay. -/
def Obligations.SbFeedWritesOnlyItsRegion : Prop :=
  ∀ (data : List Byte) (s t : State), exec (.sbFeed data) s = .next t →
    t.crcAcc = s.crcAcc ∧ t.cfg = s.cfg ∧ t.inputs = s.inputs ∧
    (data.length ≤ s.cfg.cap - s.wr → ∀ a, readCell t.buf a =
      if s.wr ≤ a ∧ a < s.wr + data.length then data[a - s.wr]? else readCell s.buf a) ∧
    (s.cfg.cap - s.wr < data.length → ∀ base, base = (if s.wr - s.rd = s.cfg.cap then 0 else s.wr - s.rd) →
      ∀ a, readCell t.buf a =
        if base ≤ a ∧ a < base + min data.length (s.cfg.cap - base) then data[a - base]?
        else if a < s.wr - s.rd then readCell s.buf (s.rd + a) else readCell s.buf a)

/-- An SB.FEED of at least one byte stores at least one byte, so resubmission makes progress. -/
def Obligations.SbFeedAlwaysProgresses : Prop :=
  ∀ (data : List Byte) (s : State), s.Inv → data ≠ [] →
    ∃ t k, exec (.sbFeed data) s = .next t ∧ t.responses = s.responses ++ [.copied k] ∧ 1 ≤ k ∧ k ≤ data.length

/-- Overflow discard is silent and total: a feed of at least one byte while all CAP bytes are unread throws them away and
answers the count of what it then stores. -/
def Obligations.FullBufferIsDiscarded : Prop :=
  ∀ (data : List Byte) (s : State), s.Inv → s.wr - s.rd = s.cfg.cap → data ≠ [] →
    ∃ t, exec (.sbFeed data) s = .next t ∧ t.rd = 0 ∧ t.wr = min data.length s.cfg.cap ∧
      unread t = some (data.take s.cfg.cap) ∧ t.responses = s.responses ++ [.copied (min data.length s.cfg.cap)]

/-- SB.FEED of no bytes changes no state and answers Ok(0), even when the buffer is full (decision D17). -/
def Obligations.EmptyFeedChangesNothing : Prop :=
  ∀ s : State, s.wr ≤ s.cfg.cap → exec (.sbFeed []) s = .next { s with responses := s.responses ++ [.copied 0] }

/-- The outcomes of SB.PULL (R166, R209): from every state that meets the invariant it completes. It skips, one byte at a
time, the positions that fail for good, and stops at the first that does not: a success raises RD by the consumed length and
yields the reply; IncompleteData, or the end of the unread region, yields None there. It never answers an error, and nothing
else changes. -/
def Obligations.SbPullSkipsToFirstFrame : Prop :=
  ∀ (u : List Byte) (s : State), s.Inv → unread s = some u →
    ∃ j n r, j ≤ u.length ∧ (∀ i, i < j → rejected (u.drop i)) ∧
      exec .sbPull s = .next { s with rd := s.rd + j + n, responses := s.responses ++ [.pulled r] } ∧
      s.rd + j + n ≤ s.wr ∧
      ((j = u.length ∧ n = 0 ∧ r = none) ∨
       (j < u.length ∧ parse (u.drop j) = .error .incompleteData ∧ n = 0 ∧ r = none) ∨
       (j < u.length ∧ ∃ reply, parse (u.drop j) = .ok (n, reply) ∧ r = some reply))

/-- The frame of SB.PULL: WR, BUF, CRCACC, the parameters and the inputs stay, and RD does not fall, in every state in which
it completes. -/
def Obligations.SbPullOnlyRaisesReadCursor : Prop :=
  ∀ s t : State, exec .sbPull s = .next t →
    s.rd ≤ t.rd ∧ ∃ r, t = { s with rd := t.rd, responses := s.responses ++ [.pulled r] }

/-- The stream buffer is a function of the unread bytes: from every state that meets the invariant SB.FEED and SB.PULL
complete, answer and move to the next unread bytes exactly as the abstract form says. -/
def Obligations.StreamBufferRefinesUnreadSequence : Prop :=
  ∀ s : State, s.Inv → ∃ u, unread s = some u ∧ u.length ≤ s.cfg.cap ∧
    (∀ data, ∃ t, exec (.sbFeed data) s = .next t ∧
      t.responses = s.responses ++ [.copied (absFeed s.cfg.cap u data).2] ∧
      unread t = some (absFeed s.cfg.cap u data).1) ∧
    ∃ t, exec .sbPull s = .next t ∧ t.responses = s.responses ++ [.pulled (absPull u).2] ∧
      unread t = some (absPull u).1

/-- Resynchronization: junk at whose every position the parse fails for good, then a valid frame: one SB.PULL yields the
frame's reply and removes the junk and the frame. In particular junk without a byte 0x02. -/
def Obligations.PullResynchronizesOnNextFrame : Prop :=
  ∀ (junk f tail : List Byte) (reply : Reply) (s : State), s.Inv → unread s = some (junk ++ f ++ tail) →
    parse f = .ok (f.length, reply) →
    ((∀ i, i < junk.length → rejected ((junk ++ f ++ tail).drop i)) ∨ 0x02#8 ∉ junk) →
      exec .sbPull s = .next { s with rd := s.rd + junk.length + f.length,
                                      responses := s.responses ++ [.pulled (some reply)] }

/-- A valid frame fed in arbitrary chunks, with a pull after each, into a buffer with no unread bytes that can hold it, yields
no reply after a proper prefix and exactly one reply once all of it is there. -/
def Obligations.ChunkedFrameYieldsExactlyOneReply : Prop :=
  ∀ (chunks : List (List Byte)) (last f : List Byte) (reply : Reply) (s : State), s.Inv → unread s = some [] →
    parse f = .ok (f.length, reply) → f.length ≤ s.cfg.cap → chunks.flatten ++ last = f → last ≠ [] →
      ∃ t, execAll (chunks.flatMap feedThenPull ++ feedThenPull last) s = .next t ∧ unread t = some [] ∧
        t.responses = s.responses ++ (chunks.flatMap fun c => [.copied c.length, .pulled none]) ++
          [.copied last.length, .pulled (some reply)]

/-- A phantom frame start stalls delivery until its verdict can fall, whatever stands behind it. After START, any LENGTH and id
4 that takes 76 bytes, or 79 if LENGTH is 74 (decision D9). After START, any LENGTH and id 50 it takes the 7 bytes up to the
mask, then 7 plus the n field bytes that the mask selects, or 10 + n if LENGTH is 5 + n, at most 83 (decision D10). With fewer
unread bytes SB.PULL answers None and changes nothing; with that many it raises RD, so the scan goes on (END before the
checksum verdict is decision D7). -/
def Obligations.PhantomStartStallsPull : Prop :=
  ∀ (len : Byte) (rest : List Byte) (s : State), s.Inv →
    (unread s = some (0x02#8 :: len :: 4#8 :: rest) →
      (3 + rest.length < (if len = 74#8 then 79 else 76) →
        exec .sbPull s = .next { s with responses := s.responses ++ [.pulled none] }) ∧
      ((if len = 74#8 then 79 else 76) ≤ 3 + rest.length → ∃ t, exec .sbPull s = .next t ∧ s.rd < t.rd)) ∧
    (unread s = some (0x02#8 :: len :: 50#8 :: rest) →
      (rest.length < 4 → exec .sbPull s = .next { s with responses := s.responses ++ [.pulled none] }) ∧
      ∀ (mask : Word) (tail : List Byte) (n : Nat), rest = bytesBe4 mask ++ tail → n = fieldsSize (selectedFields mask) →
        n ≤ 73 ∧
        (7 + tail.length < (if len.toNat = 5 + n then 10 + n else 7 + n) →
          exec .sbPull s = .next { s with responses := s.responses ++ [.pulled none] }) ∧
        ((if len.toNat = 5 + n then 10 + n else 7 + n) ≤ 7 + tail.length → ∃ t, exec .sbPull s = .next t ∧ s.rd < t.rd))

/-- SB.DRAIN ends, and a further SB.PULL answers None and changes nothing (decision D2). -/
def Obligations.DrainLeavesNothingDecodable : Prop :=
  ∀ s : State, s.Inv → ∃ t, drain s = .next t ∧ t.Inv ∧
    exec .sbPull t = .next { t with responses := t.responses ++ [.pulled none] }

/-! ## The frame builder -/

/-- FB.ENC: for every descriptor the port admits it answers the whole frame of the command, or BufferTooSmall exactly when
the destination is smaller than the frame; no state is written (decisions D14, D15). -/
def Obligations.FbEncBuildsWholeFrameOrNothing : Prop :=
  ∀ (cmd : Cmd) (dcap : Nat) (s : State), cmd.depth ≤ s.cfg.maxNest.val →
    exec (.fbEnc cmd dcap) s = .next { s with responses := s.responses ++
      [if dcap < (cmdPayload cmd).length + 5 then .error .bufferTooSmall else .frame (wireFrame (cmdPayload cmd))] }

/-- A descriptor with more than MAXNEST ForwardCan levels is refused by name (decision D14). -/
def Obligations.DeeperDescriptorIsRefused : Prop :=
  ∀ (cmd inner : Cmd) (target : Byte) (dcap : Nat) (s : State),
    (s.cfg.maxNest.val < cmd.depth → exec (.fbEnc cmd dcap) s = .refused .nestedDeeperThanMaxNest) ∧
    (s.cfg.maxNest.val < inner.depth + 1 →
      exec (.txForwardCan target inner dcap) s = .refused .nestedDeeperThanMaxNest)

/-- The payload of every descriptor that some block admits fits the LENGTH byte, and is never empty (decision D14). -/
def Obligations.PayloadLengthFitsLengthByte : Prop :=
  ∀ cmd : Cmd, cmd.depth ≤ 125 → 1 ≤ (cmdPayload cmd).length ∧ (cmdPayload cmd).length ≤ 255 ∧
    ((wireFrame (cmdPayload cmd)).getD 1 0#8).toNat = (cmdPayload cmd).length

/-- TX.GET_VALUES (R182): the constant frame, or BufferTooSmall iff dcap < 6; FB.ENC GetValues is the same. -/
def Obligations.TxGetValuesFrame : Prop :=
  ∀ (dcap : Nat) (s : State),
    exec (.txGetValues dcap) s = .next { s with responses := s.responses ++
      [if dcap < 6 then .error .bufferTooSmall
       else .frame [0x02#8, 0x01#8, 0x04#8, 0x40#8, 0x84#8, 0x03#8]] } ∧
    exec (.fbEnc .getValues dcap) s = exec (.txGetValues dcap) s

/-- TX.SET_CURRENT (R183): id 6 and the i32 big-endian in two's complement, frame length 10, BufferTooSmall iff dcap < 10; no
value is rejected; 1.5 A is 1500 for the host; 1500 and -1234 go out as the rule's examples. -/
def Obligations.TxSetCurrentFrame : Prop :=
  (∀ (raw : Word) (dcap : Nat) (s : State),
    exec (.txSetCurrent raw dcap) s = .next { s with responses := s.responses ++
      [if dcap < 10 then .error .bufferTooSmall
       else .frame ([0x02#8, 0x05#8, 0x06#8] ++ bytesBe4 raw ++ bytesBe2 (crc16 (0x06#8 :: bytesBe4 raw)) ++ [0x03#8])] } ∧
    exec (.fbEnc (.setCurrent raw) dcap) s = exec (.txSetCurrent raw dcap) s) ∧
  hostRaw (3 / 2) 1000 = 1500 ∧ bytesBe4 (s2u32 (-1234)) = [0xFF#8, 0xFF#8, 0xFB#8, 0x2E#8] ∧
  wireFrame (cmdPayload (.setCurrent (s2u32 1500))) =
    [0x02#8, 0x05#8, 0x06#8, 0x00#8, 0x00#8, 0x05#8, 0xDC#8, 0x38#8, 0x81#8, 0x03#8]

/-- TX.SET_RPM (R184): id 8 and the i32, frame length 10, BufferTooSmall iff dcap < 10; the extremes and the example. -/
def Obligations.TxSetRpmFrame : Prop :=
  (∀ (rpm : Word) (dcap : Nat) (s : State),
    exec (.txSetRpm rpm dcap) s = .next { s with responses := s.responses ++
      [if dcap < 10 then .error .bufferTooSmall
       else .frame ([0x02#8, 0x05#8, 0x08#8] ++ bytesBe4 rpm ++ bytesBe2 (crc16 (0x08#8 :: bytesBe4 rpm)) ++ [0x03#8])] } ∧
    exec (.fbEnc (.setRpm rpm) dcap) s = exec (.txSetRpm rpm dcap) s) ∧
  bytesBe4 (s2u32 (-2147483648)) = [0x80#8, 0x00#8, 0x00#8, 0x00#8] ∧
  bytesBe4 (s2u32 2147483647) = [0x7F#8, 0xFF#8, 0xFF#8, 0xFF#8] ∧
  wireFrame (cmdPayload (.setRpm (s2u32 3000))) =
    [0x02#8, 0x05#8, 0x08#8, 0x00#8, 0x00#8, 0x0B#8, 0xB8#8, 0xF8#8, 0x04#8, 0x03#8]

/-- TX.SET_HANDBRAKE (R185): id 10 and the i32, frame length 10, BufferTooSmall iff dcap < 10; 2.5 A is 2500 for the host; the
example. -/
def Obligations.TxSetHandbrakeFrame : Prop :=
  (∀ (raw : Word) (dcap : Nat) (s : State),
    exec (.txSetHandbrake raw dcap) s = .next { s with responses := s.responses ++
      [if dcap < 10 then .error .bufferTooSmall
       else .frame ([0x02#8, 0x05#8, 0x0A#8] ++ bytesBe4 raw ++ bytesBe2 (crc16 (0x0A#8 :: bytesBe4 raw)) ++ [0x03#8])] } ∧
    exec (.fbEnc (.setHandbrake raw) dcap) s = exec (.txSetHandbrake raw dcap) s) ∧
  hostRaw (5 / 2) 1000 = 2500 ∧
  wireFrame (cmdPayload (.setHandbrake (s2u32 2500))) =
    [0x02#8, 0x05#8, 0x0A#8, 0x00#8, 0x00#8, 0x09#8, 0xC4#8, 0x65#8, 0xFE#8, 0x03#8]

/-- TX.FORWARD_CAN: id 34, the target, then the inner command's whole payload with no length and no framing of its own; one
checksum over all of it; BufferTooSmall iff dcap < 7 + L(inner) (the bound on nesting is decision D14). -/
def Obligations.TxForwardCanFrame : Prop :=
  ∀ (target : Byte) (inner : Cmd) (dcap : Nat) (s : State), inner.depth + 1 ≤ s.cfg.maxNest.val →
    exec (.txForwardCan target inner dcap) s = .next { s with responses := s.responses ++
      [if dcap < 7 + (cmdPayload inner).length then .error .bufferTooSmall
       else .frame (wireFrame ([0x22#8, target] ++ cmdPayload inner))] } ∧
    exec (.fbEnc (.forwardCan target inner) dcap) s = exec (.txForwardCan target inner dcap) s

/-- TX.GET_VALUES_SELECTIVE (R187): id 50 and all 32 bits of the mask as given, frame length 10, BufferTooSmall iff dcap < 10;
the two examples. -/
def Obligations.TxGetValuesSelectiveFrame : Prop :=
  (∀ (mask : Word) (dcap : Nat) (s : State),
    exec (.txGetValuesSelective mask dcap) s = .next { s with responses := s.responses ++
      [if dcap < 10 then .error .bufferTooSmall
       else .frame ([0x02#8, 0x05#8, 0x32#8] ++ bytesBe4 mask ++ bytesBe2 (crc16 (0x32#8 :: bytesBe4 mask)) ++ [0x03#8])] } ∧
    exec (.fbEnc (.getValuesSelective mask) dcap) s = exec (.txGetValuesSelective mask dcap) s) ∧
  wireFrame (cmdPayload (.getValuesSelective 0x00000181#32)) =
    [0x02#8, 0x05#8, 0x32#8, 0x00#8, 0x00#8, 0x01#8, 0x81#8, 0xFA#8, 0xF5#8, 0x03#8] ∧
  wireFrame (cmdPayload (.getValuesSelective 0x80000001#32)) =
    [0x02#8, 0x05#8, 0x32#8, 0x80#8, 0x00#8, 0x00#8, 0x01#8, 0x85#8, 0x74#8, 0x03#8]

/-- What the parser says of a built frame: the commands 6, 8, 10 and 34 are unknown packets; a GetValues command is incomplete
until 76 bytes are there and then invalid; a GetValuesSelective command is an empty selective reply exactly when its mask
selects no field, and otherwise incomplete or invalid. -/
def Obligations.ParserVerdictOnBuiltFrames : Prop :=
  (∀ (v : Word) (more : List Byte),
    parse (wireFrame (cmdPayload (.setCurrent v)) ++ more) = .error (.unknownPacket 6#8) ∧
    parse (wireFrame (cmdPayload (.setRpm v)) ++ more) = .error (.unknownPacket 8#8) ∧
    parse (wireFrame (cmdPayload (.setHandbrake v)) ++ more) = .error (.unknownPacket 10#8)) ∧
  (∀ (target : Byte) (inner : Cmd) (more : List Byte),
    parse (wireFrame (cmdPayload (.forwardCan target inner)) ++ more) = .error (.unknownPacket 34#8)) ∧
  (∀ more : List Byte, parse (wireFrame (cmdPayload .getValues) ++ more) =
    if more.length < 70 then .error .incompleteData else .error .invalidFrame) ∧
  (∀ mask : Word, parse (wireFrame (cmdPayload (.getValuesSelective mask))) =
    if selectedFields mask = [] then .ok (10, ⟨.getValuesSelective, zeroValues⟩)
    else if fieldsSize (selectedFields mask) ≤ 3 then .error .invalidFrame else .error .incompleteData)

/-! ## The host's side -/

/-- Round trip of a scaled value: the host's division recovers it within 1/scale of what it gave the block. It is a statement
about the host's arithmetic, which the spec leaves outside the block (decisions D12, D13); that the model writes it down beside
the machine, over exact rationals where the spec says reals, is the model's choice (log 15). -/
def Obligations.HostScalingLosesLessThanOneStep : Prop :=
  ∀ (x : ℚ) (scale : Nat), 0 < scale → |x - hostValue (hostRaw x scale) scale| < 1 / (scale : ℚ)
end

