-- ==== Sys2Proof/Laws/Bytes.lean ====
section
/-! SUPPORT. Byte order and digits: what is written big-endian reads back. -/

namespace Sys2Proof.Machine

@[simp] theorem length_bytesBe2 (v : Half) : (bytesBe2 v).length = 2 := rfl
@[simp] theorem length_bytesBe4 (v : Word) : (bytesBe4 v).length = 4 := rfl

/-- The unsigned value of a string with a byte below it. -/
theorem be2_toNat_append {n : Nat} (x : BitVec n) (b : Byte) : (x ++ b).toNat = x.toNat * 256 + b.toNat := by
  have h1 := b.isLt
  rw [BitVec.toNat_append, Nat.shiftLeft_eq, Nat.mul_comm, ← Nat.two_pow_add_eq_or_of_lt (by omega)]

/-- The unsigned value of two bytes, R47. -/
theorem be2_toNat (b0 b1 : Byte) : (be2 b0 b1).toNat = b0.toNat * 256 + b1.toNat := be2_toNat_append b0 b1

/-- The unsigned value of four bytes, R47. -/
theorem be4_toNat (b0 b1 b2 b3 : Byte) :
    (be4 b0 b1 b2 b3).toNat = b0.toNat * 2 ^ 24 + b1.toNat * 2 ^ 16 + b2.toNat * 2 ^ 8 + b3.toNat := by
  have e1 : (b0 ++ b1).toNat = b0.toNat * 256 + b1.toNat := be2_toNat_append b0 b1
  have e2 : (b0 ++ b1 ++ b2).toNat = (b0 ++ b1).toNat * 256 + b2.toNat := be2_toNat_append (b0 ++ b1) b2
  rw [be4, be2_toNat_append (b0 ++ b1 ++ b2) b3, e2, e1]
  omega

theorem byte_toNat_extract (n : Nat) (v : BitVec n) (k : Nat) :
    (v.extractLsb' k 8).toNat = v.toNat / 2 ^ k % 256 := by
  simp [Nat.shiftRight_eq_div_pow]

/-- `be_2` undoes `bytes_be_2`. -/
theorem be2_bytesBe2 (v : Half) : be2 (v.extractLsb' 8 8) (v.extractLsb' 0 8) = v := by
  apply BitVec.eq_of_toNat_eq
  have := v.isLt
  rw [be2_toNat, byte_toNat_extract, byte_toNat_extract]
  omega

/-- `be_4` undoes `bytes_be_4`. -/
theorem be4_bytesBe4 (v : Word) :
    be4 (v.extractLsb' 24 8) (v.extractLsb' 16 8) (v.extractLsb' 8 8) (v.extractLsb' 0 8) = v := by
  apply BitVec.eq_of_toNat_eq
  have := v.isLt
  rw [be4_toNat, byte_toNat_extract, byte_toNat_extract, byte_toNat_extract, byte_toNat_extract]
  omega

/-- `bytes_be_2` undoes `be_2`. -/
theorem bytesBe2_be2 (b0 b1 : Byte) : bytesBe2 (be2 b0 b1) = [b0, b1] := by
  have h0 := b0.isLt
  have h1 := b1.isLt
  have e0 : (be2 b0 b1).extractLsb' 8 8 = b0 := by
    apply BitVec.eq_of_toNat_eq
    rw [byte_toNat_extract, be2_toNat]
    omega
  have e1 : (be2 b0 b1).extractLsb' 0 8 = b1 := by
    apply BitVec.eq_of_toNat_eq
    rw [byte_toNat_extract, be2_toNat]
    omega
  rw [bytesBe2, e0, e1]

/-- `bytes_be_4` undoes `be_4`. -/
theorem bytesBe4_be4 (b0 b1 b2 b3 : Byte) : bytesBe4 (be4 b0 b1 b2 b3) = [b0, b1, b2, b3] := by
  have h0 := b0.isLt
  have h1 := b1.isLt
  have h2 := b2.isLt
  have h3 := b3.isLt
  have e0 : (be4 b0 b1 b2 b3).extractLsb' 24 8 = b0 := by
    apply BitVec.eq_of_toNat_eq
    rw [byte_toNat_extract, be4_toNat]
    omega
  have e1 : (be4 b0 b1 b2 b3).extractLsb' 16 8 = b1 := by
    apply BitVec.eq_of_toNat_eq
    rw [byte_toNat_extract, be4_toNat]
    omega
  have e2 : (be4 b0 b1 b2 b3).extractLsb' 8 8 = b2 := by
    apply BitVec.eq_of_toNat_eq
    rw [byte_toNat_extract, be4_toNat]
    omega
  have e3 : (be4 b0 b1 b2 b3).extractLsb' 0 8 = b3 := by
    apply BitVec.eq_of_toNat_eq
    rw [byte_toNat_extract, be4_toNat]
    omega
  rw [bytesBe4, e0, e1, e2, e3]

/-- The sign of an i16 held in a 32-bit place, R48: sign extension keeps the value. -/
theorem u2s32_signExtend (v : Half) : u2s32 (v.signExtend 32) = u2s16 v :=
  BitVec.toInt_signExtend_of_le (by omega)

/-- `s2u_32` and `u2s_32` are inverse on the i32 range, R11. -/
theorem u2s32_s2u32 (x : Int) (h : -2147483648 ≤ x ∧ x < 2147483648) : u2s32 (s2u32 x) = x := by
  rw [u2s32, s2u32, BitVec.toInt_ofInt]
  exact Int.bmod_eq_of_le (by omega) (by omega)

@[simp] theorem s2u32_u2s32 (v : Word) : s2u32 (u2s32 v) = v := BitVec.ofInt_toInt

/-! ## Digits -/

theorem natOfBytes_append (l l' : List Byte) :
    natOfBytes (l ++ l') = l'.foldl (fun n b => n * 256 + b.toNat) (natOfBytes l) := by
  simp [natOfBytes]

theorem foldl_bytesOfNatAux (fuel n : Nat) (acc : List Byte) (h : n ≤ fuel) :
    natOfBytes (bytesOfNatAux fuel n acc) = acc.foldl (fun n b => n * 256 + b.toNat) n := by
  induction fuel generalizing n acc with
  | zero =>
    obtain rfl : n = 0 := by omega
    rfl
  | succ fuel ih =>
    simp only [bytesOfNatAux]
    split
    · subst_vars
      rfl
    · rw [ih (n / 256) _ (by omega)]
      simp only [List.foldl_cons, BitVec.toNat_ofNat]
      congr 1
      omega

/-- The digits of a number spell it. -/
theorem natOfBytes_bytesOfNat (n : Nat) : natOfBytes (bytesOfNat n) = n := foldl_bytesOfNatAux n n [] (le_refl n)

end Sys2Proof.Machine
end

