-- ==== Sys2Proof/Laws/State.lean ====
section
/-! SUPPORT. One lemma per field per update of the state, and the reads of a record after a write. -/

namespace Sys2Proof.Machine

@[simp] theorem respond_crcAcc (s : State) (r : Response) : (respond s r).crcAcc = s.crcAcc := rfl
@[simp] theorem respond_buf (s : State) (r : Response) : (respond s r).buf = s.buf := rfl
@[simp] theorem respond_rd (s : State) (r : Response) : (respond s r).rd = s.rd := rfl
@[simp] theorem respond_wr (s : State) (r : Response) : (respond s r).wr = s.wr := rfl
@[simp] theorem respond_cfg (s : State) (r : Response) : (respond s r).cfg = s.cfg := rfl
@[simp] theorem respond_inputs (s : State) (r : Response) : (respond s r).inputs = s.inputs := rfl
@[simp] theorem respond_responses (s : State) (r : Response) : (respond s r).responses = s.responses ++ [r] := rfl

@[simp] theorem raise_crcAcc (s : State) (e : Err) : (raise s e).crcAcc = s.crcAcc := rfl
@[simp] theorem raise_buf (s : State) (e : Err) : (raise s e).buf = s.buf := rfl
@[simp] theorem raise_rd (s : State) (e : Err) : (raise s e).rd = s.rd := rfl
@[simp] theorem raise_wr (s : State) (e : Err) : (raise s e).wr = s.wr := rfl
@[simp] theorem raise_cfg (s : State) (e : Err) : (raise s e).cfg = s.cfg := rfl
@[simp] theorem raise_inputs (s : State) (e : Err) : (raise s e).inputs = s.inputs := rfl
@[simp] theorem raise_responses (s : State) (e : Err) : (raise s e).responses = s.responses ++ [.error e] := rfl

@[simp] theorem applyReset_crcAcc (s : State) : (applyReset s).crcAcc = 0x0000#16 := rfl
@[simp] theorem applyReset_buf (s : State) : (applyReset s).buf = [] := rfl
@[simp] theorem applyReset_rd (s : State) : (applyReset s).rd = 0 := rfl
@[simp] theorem applyReset_wr (s : State) : (applyReset s).wr = 0 := rfl
@[simp] theorem applyReset_cfg (s : State) : (applyReset s).cfg = s.cfg := rfl
@[simp] theorem applyReset_inputs (s : State) : (applyReset s).inputs = s.inputs := rfl
@[simp] theorem applyReset_responses (s : State) : (applyReset s).responses = s.responses := rfl

@[simp] theorem withFetchWord_crcAcc (s : State) (nbits w : Nat) : (s.withFetchWord nbits w).crcAcc = s.crcAcc := rfl
@[simp] theorem withFetchWord_buf (s : State) (nbits w : Nat) : (s.withFetchWord nbits w).buf = s.buf := rfl
@[simp] theorem withFetchWord_rd (s : State) (nbits w : Nat) : (s.withFetchWord nbits w).rd = s.rd := rfl
@[simp] theorem withFetchWord_wr (s : State) (nbits w : Nat) : (s.withFetchWord nbits w).wr = s.wr := rfl
@[simp] theorem withFetchWord_cfg (s : State) (nbits w : Nat) : (s.withFetchWord nbits w).cfg = s.cfg := rfl
@[simp] theorem withFetchWord_inputs (s : State) (nbits w : Nat) : (s.withFetchWord nbits w).inputs = [.message (tableMessage nbits w).1 (tableMessage nbits w).2] := rfl
@[simp] theorem withFetchWord_responses (s : State) (nbits w : Nat) : (s.withFetchWord nbits w).responses = s.responses := rfl

/-- What `answer` does: it appends one response. -/
theorem answer_eq (s : State) (r : Except Err Response) :
    answer s r = { s with responses := s.responses ++ [match r with | .ok v => v | .error e => .error e] } := by
  cases r <;> rfl

@[simp] theorem answer_crcAcc (s : State) (r : Except Err Response) : (answer s r).crcAcc = s.crcAcc := by cases r <;> rfl
@[simp] theorem answer_buf (s : State) (r : Except Err Response) : (answer s r).buf = s.buf := by cases r <;> rfl
@[simp] theorem answer_rd (s : State) (r : Except Err Response) : (answer s r).rd = s.rd := by cases r <;> rfl
@[simp] theorem answer_wr (s : State) (r : Except Err Response) : (answer s r).wr = s.wr := by cases r <;> rfl
@[simp] theorem answer_cfg (s : State) (r : Except Err Response) : (answer s r).cfg = s.cfg := by cases r <;> rfl
@[simp] theorem answer_inputs (s : State) (r : Except Err Response) : (answer s r).inputs = s.inputs := by cases r <;> rfl

@[simp] theorem answer_ok (s : State) (v : Response) : answer s (.ok v) = respond s v := rfl
@[simp] theorem answer_error (s : State) (e : Err) : answer s (.error e) = raise s e := rfl

/-- What `nextInput` can do. -/
theorem nextInput_cases (s : State) :
    (s.inputs = [] ∧ nextInput s = none) ∨
      ∃ i rest, s.inputs = i :: rest ∧ nextInput s = some (i, { s with inputs := rest }) := by
  unfold nextInput
  cases h : s.inputs with
  | nil => exact .inl ⟨rfl, rfl⟩
  | cons i rest => exact .inr ⟨i, rest, rfl, rfl⟩

/-- Everything one step can do. -/
theorem step_cases (s : State) :
    (s.inputs = [] ∧ step s = .next s) ∨
    (∃ rest, s.inputs = .reset :: rest ∧ step s = .next (applyReset { s with inputs := rest })) ∨
    (∃ c bytes rest why, s.inputs = .message c bytes :: rest ∧ decode c bytes = .error why ∧
      step s = .refused (.undecoded why)) ∨
    (∃ c bytes rest i, s.inputs = .message c bytes :: rest ∧ decode c bytes = .ok i ∧
      step s = exec i { s with inputs := rest }) := by
  rcases nextInput_cases s with ⟨h, hn⟩ | ⟨i, rest, h, hn⟩
  · exact .inl ⟨h, by simp [step, hn]⟩
  · cases i with
    | reset => exact .inr (.inl ⟨rest, h, by simp [step, hn]⟩)
    | message c bytes =>
      cases hd : decode c bytes with
      | error why => exact .inr (.inr (.inl ⟨c, bytes, rest, why, h, hd, by simp [step, hn, hd]⟩))
      | ok i => exact .inr (.inr (.inr ⟨c, bytes, rest, i, h, hd, by simp [step, hn, hd]⟩))

/-- A record read after a write of one field. -/
@[simp] theorem getField_setField (v : Values) (f g : Field) (x : Int) :
    getField (setField v f x) g = if g = f then x else getField v g := by
  cases f <;> cases g <;> rfl

@[simp] theorem getField_zeroValues (f : Field) : getField zeroValues f = 0 := by cases f <;> rfl

/-- Two records with the same fields are the same. -/
theorem values_ext (v w : Values) (h : ∀ f, getField v f = getField w f) : v = w := by
  cases v
  cases w
  simp only [Values.mk.injEq]
  exact ⟨h .tempMosfet, h .tempMotor, h .avgCurrentMotor, h .avgCurrentInput, h .avgCurrentD, h .avgCurrentQ, h .dutyCycle, h .rpm, h .voltageIn, h .ampHours, h .ampHoursCharged, h .wattHours, h .wattHoursCharged, h .tachometer, h .tachometerAbs, h .faultCode, h .pidPos, h .controllerId, h .tempMosfet1, h .tempMosfet2, h .tempMosfet3, h .avgVoltageD, h .avgVoltageQ, h .status⟩

end Sys2Proof.Machine
end

