-- ==== Sys2Proof/Laws/Operands.lean ====
section
/-! SUPPORT. The operand forms: when a read or a write succeeds, and what it then gives. -/

namespace Sys2Proof.Machine

/-! ## Reads -/

theorem drop_eq_getD_cons {w : List Byte} {p : Nat} (h : p < w.length) : w.drop p = w.getD p 0#8 :: w.drop (p + 1) := by
  rw [List.drop_eq_getElem_cons h, List.getD_eq_getElem _ _ h]

theorem rdU8_eq (w : List Byte) (p : Nat) :
    rdU8 w p = if p + 1 ≤ w.length then .ok (w.getD p 0#8, p + 1) else .error .incompleteData := by
  unfold rdU8
  by_cases h : p + 1 ≤ w.length
  · rw [if_pos h, drop_eq_getD_cons (by omega)]
  · rw [if_neg h, List.drop_eq_nil_of_le (by omega)]

theorem rdU16_eq (w : List Byte) (p : Nat) :
    rdU16 w p = if p + 2 ≤ w.length then .ok (be2 (w.getD p 0#8) (w.getD (p + 1) 0#8), p + 2)
      else .error .incompleteData := by
  unfold rdU16
  by_cases h : p + 2 ≤ w.length
  · rw [if_pos h, drop_eq_getD_cons (by omega), drop_eq_getD_cons (by omega)]
  · rw [if_neg h]
    split
    · rename_i ht
      have := congrArg List.length ht
      simp at this
      omega
    · rfl

theorem rdU32_eq (w : List Byte) (p : Nat) :
    rdU32 w p = if p + 4 ≤ w.length then
      .ok (be4 (w.getD p 0#8) (w.getD (p + 1) 0#8) (w.getD (p + 2) 0#8) (w.getD (p + 3) 0#8), p + 4)
      else .error .incompleteData := by
  unfold rdU32
  by_cases h : p + 4 ≤ w.length
  · rw [if_pos h, drop_eq_getD_cons (by omega), drop_eq_getD_cons (by omega), drop_eq_getD_cons (by omega),
      drop_eq_getD_cons (by omega)]
  · rw [if_neg h]
    split
    · rename_i ht
      have := congrArg List.length ht
      simp at this
      omega
    · rfl

/-- A read of a raw value: it succeeds exactly when its bytes are there. -/
theorem rdRaw_eq (ty : WireType) (w : List Byte) (p : Nat) :
    rdRaw ty w p = if p + wireSize ty ≤ w.length then .ok (rawAt ty w p, p + wireSize ty)
      else .error .incompleteData := by
  by_cases h : p + wireSize ty ≤ w.length
  · rw [if_pos h]
    cases ty <;> simp only [wireSize] at h <;>
      simp [rdRaw, rdI16, rdI32, rdU8_eq, rdU16_eq, rdU32_eq, h, rawAt, wireSize, Except.map]
  · rw [if_neg h]
    cases ty <;> simp only [wireSize] at h <;>
      simp [rdRaw, rdI16, rdI32, rdU8_eq, rdU16_eq, rdU32_eq, h, Except.map]

/-- The record after the fields have been read, whatever the window holds. -/
def readInto (w : List Byte) : List Field → Values → Nat → Values
  | [], v, _ => v
  | f :: fs, v, p => readInto w fs (setField v f (rawAt (fieldType f) w p)) (p + wireSize (fieldType f))

@[simp] theorem fieldsSize_nil : fieldsSize [] = 0 := rfl
@[simp] theorem fieldsSize_cons (f : Field) (fs : List Field) :
    fieldsSize (f :: fs) = wireSize (fieldType f) + fieldsSize fs := by simp [fieldsSize]
theorem fieldsSize_append (fs gs : List Field) : fieldsSize (fs ++ gs) = fieldsSize fs + fieldsSize gs := by
  simp [fieldsSize]

theorem wireSize_pos (ty : WireType) : 1 ≤ wireSize ty := by cases ty <;> decide

/-- Reading a list of fields: it succeeds exactly when all their bytes are there. -/
theorem readFields_eq (w : List Byte) (fs : List Field) (v : Values) (p : Nat) (h : p ≤ w.length) :
    readFields w fs v p = if p + fieldsSize fs ≤ w.length then .ok (readInto w fs v p, p + fieldsSize fs)
      else .error .incompleteData := by
  induction fs generalizing v p with
  | nil => simp [readFields, readInto, h]
  | cons f fs ih =>
    simp only [readFields, rdRaw_eq, fieldsSize_cons, readInto]
    by_cases h1 : p + wireSize (fieldType f) ≤ w.length
    · simp only [h1, if_true]
      rw [ih _ _ h1, Nat.add_assoc]
    · rw [if_neg h1, if_neg (by omega)]

/-- A field of the record after the fields have been read. -/
theorem getField_readInto (w : List Byte) (fs : List Field) (v : Values) (p : Nat) (f : Field) (hn : fs.Nodup) :
    getField (readInto w fs v p) f =
      if f ∈ fs then rawAt (fieldType f) w (p + fieldsSize (fs.takeWhile fun g => decide (g ≠ f))) else getField v f := by
  induction fs generalizing v p with
  | nil => simp [readInto]
  | cons g fs ih =>
    obtain ⟨hg, hn'⟩ := List.nodup_cons.mp hn
    rw [readInto, ih _ _ hn']
    by_cases hfg : g = f
    · subst hfg
      simp [hg]
    · have hfg' : f ≠ g := fun h => hfg h.symm
      simp only [List.mem_cons, hfg', false_or, getField_setField, if_false]
      split
      · rw [List.takeWhile_cons_of_pos (by simpa using hfg), fieldsSize_cons, Nat.add_assoc]
      · rfl

theorem allFields_nodup : allFields.Nodup := by decide

/-- The selected fields are those of the fixed order whose bit is set. -/
theorem selectedFields_eq_filter (mask : Word) :
    selectedFields mask = allFields.filter fun f => mask.getLsbD (fieldBit f) := by
  have h : allFields = (List.range 22).flatMap fieldsOfBit := by decide
  rw [h, List.filter_flatMap, selectedFields]
  congr 1
  funext b
  have key : ∀ f ∈ fieldsOfBit b, fieldBit f = b := fun f hf => by
    simpa using (List.mem_filter.mp hf).2
  cases hb : mask.getLsbD b with
  | true =>
    rw [if_pos rfl, List.filter_eq_self.mpr]
    intro f hf
    rw [key f hf, hb]
  | false =>
    rw [if_neg (by simp), eq_comm, List.filter_eq_nil_iff]
    intro f hf
    rw [key f hf, hb]
    simp

theorem mem_allFields (f : Field) : f ∈ allFields := by cases f <;> decide

theorem mem_selectedFields (mask : Word) (f : Field) : f ∈ selectedFields mask ↔ mask.getLsbD (fieldBit f) = true := by
  rw [selectedFields_eq_filter, List.mem_filter]
  simp [mem_allFields]

theorem selectedFields_nodup (mask : Word) : (selectedFields mask).Nodup := by
  rw [selectedFields_eq_filter]
  exact allFields_nodup.filter _

theorem fieldsSize_allFields : fieldsSize allFields = 73 := by decide

/-- A selective reply carries at most 73 field bytes (R80). -/
theorem fieldsSize_selected_le (mask : Word) : fieldsSize (selectedFields mask) ≤ 73 := by
  rw [← fieldsSize_allFields, selectedFields_eq_filter]
  exact (List.filter_sublist.map _).sum_le_sum (by simp)

/-! ## Writes -/

/-- What a write can do. -/
theorem wrBytes_eq (d : Dest) (l : List Byte) :
    wrBytes d l = if d.cap - d.bytes.length < l.length then .error .bufferTooSmall
      else .ok ⟨d.cap, d.bytes ++ l⟩ := rfl

theorem wrBytes_fits {d : Dest} {l : List Byte} (h : d.bytes.length + l.length ≤ d.cap) :
    wrBytes d l = .ok ⟨d.cap, d.bytes ++ l⟩ := by
  by_cases h0 : d.cap - d.bytes.length < l.length
  · omega
  · rw [wrBytes_eq, if_neg h0]

theorem wrBytes_fails {d : Dest} {l : List Byte} (h : d.cap < d.bytes.length + l.length) (hl : l ≠ []) :
    wrBytes d l = .error .bufferTooSmall := by
  have := List.length_pos_iff.mpr hl
  rw [wrBytes_eq, if_pos (by omega)]

/-- A packer that appends a fixed byte sequence or fails for want of room. -/
def Appends (a : Dest → Except Err Dest) (l : List Byte) : Prop :=
  ∀ d : Dest, d.bytes.length ≤ d.cap → a d = wrBytes d l

theorem appends_wrBytes (l : List Byte) : Appends (fun d => wrBytes d l) l := fun _ _ => rfl

/-- Two writes one after the other are one write, since each fails exactly when it would pass the capacity. -/
theorem appends_andThen {a b : Dest → Except Err Dest} {l l' : List Byte} (ha : Appends a l) (hb : Appends b l') :
    Appends (andThen a b) (l ++ l') := by
  intro d hd
  rw [andThen, ha d hd, wrBytes_eq, wrBytes_eq]
  by_cases h : d.cap - d.bytes.length < l.length
  · rw [if_pos h, if_pos (by simp; omega)]
  · rw [if_neg h]
    simp only
    rw [hb _ (by simp; omega), wrBytes_eq]
    simp only [List.length_append]
    by_cases h' : d.cap - (d.bytes.length + l.length) < l'.length
    · rw [if_pos h', if_pos (by omega)]
    · rw [if_neg h', if_neg (by omega), List.append_assoc]

end Sys2Proof.Machine
end

