-- ==== Sys2Proof/Laws/Builder.lean ====
section
/-! SUPPORT. The frame builder: what each packer appends, and what a build answers. -/

namespace Sys2Proof.Machine

theorem appends_packGetValues : Appends packGetValues [idGetValues] := fun _ _ => rfl

theorem appends_packI32 (id : Byte) (v : Word) : Appends (packI32 id v) (id :: bytesBe4 v) :=
  appends_andThen (l := [id]) (l' := bytesBe4 v) (appends_wrBytes _) (appends_wrBytes _)

theorem appends_packGetValuesSelective (mask : Word) :
    Appends (packGetValuesSelective mask) (idGetValuesSelective :: bytesBe4 mask) :=
  appends_andThen (l := [idGetValuesSelective]) (l' := bytesBe4 mask) (appends_wrBytes _) (appends_wrBytes _)

theorem appends_packForwardCan (target : Byte) {inner : Dest → Except Err Dest} {l : List Byte} (h : Appends inner l) :
    Appends (packForwardCan target inner) (idForwardCan :: target :: l) :=
  appends_andThen (l := [idForwardCan]) (l' := target :: l) (appends_wrBytes _)
    (appends_andThen (l := [target]) (l' := l) (appends_wrBytes _) h)

/-- `pack` appends the payload of the command (R182 to R187). -/
theorem appends_pack (cmd : Cmd) : Appends (pack cmd) (cmdPayload cmd) := by
  induction cmd with
  | getValues => exact appends_packGetValues
  | setCurrent raw => exact appends_packI32 _ _
  | setRpm rpm => exact appends_packI32 _ _
  | setHandbrake raw => exact appends_packI32 _ _
  | getValuesSelective mask => exact appends_packGetValuesSelective mask
  | forwardCan target inner ih => exact appends_packForwardCan target ih

theorem length_wireFrame (p : List Byte) : (wireFrame p).length = p.length + 5 := by
  simp [wireFrame]

/-- The end of a build: LENGTH backpatched, CHECKSUM, END (R181). -/
theorem closeFrame_eq (dcap : Nat) (p : List Byte) :
    closeFrame 2 ⟨dcap, startMarker :: 0#8 :: p⟩ =
      if dcap < p.length + 5 then .error .bufferTooSmall else .ok (wireFrame p) := by
  have e : patchByte ⟨dcap, startMarker :: 0#8 :: p⟩ 1 (BitVec.ofNat 8 (p.length + 1 + 1 - 2)) =
      ⟨dcap, startMarker :: BitVec.ofNat 8 p.length :: p⟩ := rfl
  have c : crc16 (((startMarker :: BitVec.ofNat 8 p.length :: p).drop 2).take (p.length + 1 + 1 - 2)) = crc16 p := by
    rw [show p.length + 1 + 1 - 2 = p.length by omega]
    simp
  simp only [closeFrame, destPos, List.length_cons, e, c, wrU16, wrU8]
  by_cases h1 : dcap < p.length + 4
  · rw [if_pos (by omega), wrBytes_fails (by simp; omega) (by simp [bytesBe2])]
  · rw [wrBytes_fits (by simp; omega)]
    simp only
    by_cases h2 : dcap < p.length + 5
    · rw [if_pos h2, wrBytes_fails (by simp; omega) (by simp)]
    · rw [if_neg h2, wrBytes_fits (by simp; omega)]
      simp [wireFrame]

/-- What a build answers for a packer that appends a payload (R181, R188). -/
theorem buildFrame_eq {packer : Dest → Except Err Dest} {p : List Byte} (h : Appends packer p) (dcap : Nat) :
    buildFrame packer dcap = if dcap < p.length + 5 then .error .bufferTooSmall else .ok (wireFrame p) := by
  unfold buildFrame
  have h0 : andThen (fun d => wrU8 d startMarker) (fun d => wrU8 d 0#8) ⟨dcap, []⟩ =
      wrBytes ⟨dcap, []⟩ [startMarker, 0#8] :=
    appends_andThen (l := [startMarker]) (l' := [0#8]) (appends_wrBytes _) (appends_wrBytes _) ⟨dcap, []⟩ (by simp)
  rw [h0]
  by_cases h2 : dcap < 2
  · rw [wrBytes_fails (by simpa using h2) (by simp), if_pos (by omega)]
  · rw [wrBytes_fits (by simp; omega)]
    simp only [List.nil_append]
    rw [h _ (by simp; omega)]
    by_cases h3 : dcap < p.length + 2
    · rw [if_pos (by omega), wrBytes_fails (by simp; omega) (by rintro rfl; simp at h3; omega)]
    · rw [wrBytes_fits (by simp; omega)]
      exact closeFrame_eq dcap p

/-- The check on nesting is the bound on the depth (spec/30_encoding.md R84). -/
theorem nestsWithin_iff (cmd : Cmd) (n : Nat) : nestsWithin cmd n = true ↔ cmd.depth ≤ n := by
  induction cmd generalizing n with
  | forwardCan target inner ih =>
    cases n with
    | zero => simp [nestsWithin, Cmd.depth]
    | succ n => simp [nestsWithin, Cmd.depth, ih]
  | _ => simp [nestsWithin, Cmd.depth]

theorem payloadLength_eq (cmd : Cmd) : (cmdPayload cmd).length = payloadLength cmd := by
  induction cmd with
  | forwardCan target inner ih => simp [cmdPayload, payloadLength, ih]; omega
  | _ => simp [cmdPayload, payloadLength]

end Sys2Proof.Machine
end

