-- ==== Sys2Proof/Laws/Crc.lean ====
section
/-! SUPPORT. The CRC step: linear over exclusive-or, and the fold over a sequence in parts. -/

namespace Sys2Proof.Machine

@[simp] theorem crcFold_nil (acc : Half) : crcFold acc [] = acc := rfl
@[simp] theorem crcFold_cons (acc : Half) (b : Byte) (s : List Byte) : crcFold acc (b :: s) = crcFold (crcStep acc b) s := rfl

/-- The fold is the fold of the step (R101). -/
theorem crcFold_eq_foldl (acc : Half) (s : List Byte) : crcFold acc s = s.foldl crcStep acc := by
  induction s generalizing acc with
  | nil => rfl
  | cons b s ih => exact ih _

/-- The fold of a sequence in two parts (R105, law 3). -/
theorem crcFold_append (acc : Half) (a b : List Byte) : crcFold acc (a ++ b) = crcFold (crcFold acc a) b := by
  simp [crcFold_eq_foldl]

/-- INIT is 0 and XOROUT is 0: `crc16` is the fold from 0 (R101). -/
theorem crc16_eq_fold (s : List Byte) : crc16 s = crcFold 0x0000#16 s := by simp [crc16]

/-- One shift is linear. -/
theorem crcShift_xor (a b : Half) : crcShift (a ^^^ b) = crcShift a ^^^ crcShift b := by
  unfold crcShift
  rw [BitVec.getLsbD_xor, BitVec.shiftLeft_xor_distrib]
  cases a.getLsbD 15 <;> cases b.getLsbD 15
  · rfl
  · simp only [Bool.false_xor, if_true, Bool.false_eq_true, if_false]
    ac_rfl
  · simp only [Bool.xor_false, if_true, Bool.false_eq_true, if_false]
    ac_rfl
  · simp only [Bool.xor_self, if_true, Bool.false_eq_true, if_false]
    rw [show a <<< 1 ^^^ crcPoly ^^^ (b <<< 1 ^^^ crcPoly) = a <<< 1 ^^^ b <<< 1 ^^^ (crcPoly ^^^ crcPoly) by ac_rfl,
      BitVec.xor_self, BitVec.xor_zero]

/-- So is any number of shifts. -/
theorem crcShifts_xor (n : Nat) (a b : Half) : crcShifts n (a ^^^ b) = crcShifts n a ^^^ crcShifts n b := by
  induction n generalizing a b with
  | zero => rfl
  | succ n ih => simp only [crcShifts, crcShift_xor, ih]

/-- The step is the shifts of the accumulator and the shifts of the byte, joined. -/
theorem crcStep_split (acc : Half) (b : Byte) : crcStep acc b = crcShifts 8 acc ^^^ crcStep 0x0000#16 b := by
  simp only [crcStep, crcShifts_xor, BitVec.zero_xor]

end Sys2Proof.Machine
end

