-- ==== Sys2Proof/Laws/Exec.lean ====
section
/-! SUPPORT. What an answer of SB.FEED or SB.PULL says about the buffer operation under it. -/

namespace Sys2Proof.Machine

/-- If SB.FEED answers, the buffer operation answered, and the response is the count of its copy. -/
theorem execSbFeed_next {data : List Byte} {s t : State} (h : execSbFeed data s = .next t) :
    ∃ s' k, feed data s = .ok (s', k) ∧ t = respond s' (.copied k) := by
  unfold execSbFeed at h
  split at h
  · cases h
  · rename_i s' k hf
    cases h
    exact ⟨s', k, hf, rfl⟩

/-- If SB.PULL answers, the scan answered, and the response is its reply, if any. -/
theorem execSbPull_next {s t : State} (h : execSbPull s = .next t) :
    ∃ s' r, pull s = .ok (s', r) ∧ t = respond s' (.pulled r) := by
  unfold execSbPull at h
  split at h
  · cases h
  · rename_i s' r hp
    cases h
    exact ⟨s', r, hp, rfl⟩

end Sys2Proof.Machine
end

