-- ==== Sys2Proof/Laws/Memory.lean ====
section
/-! SUPPORT. BUF: read after write, what a write leaves alone, and that every operation keeps the canonical form. -/

namespace Sys2Proof.Machine

/-! ## One cell -/

theorem readCell_writeCell (m : List Host.Cell) (a a' : Nat) (b : Byte) :
    readCell (writeCell m a b) a' = if a' = a then some b else readCell m a' := by
  induction m with
  | nil => by_cases h : a = a' <;> simp [writeCell, readCell, h, eq_comm]
  | cons c rest ih =>
    obtain ⟨k, x⟩ := c
    simp only [writeCell]
    split
    · by_cases h : a = a' <;> simp [readCell, h, eq_comm]
    · split
      · subst_vars
        by_cases h : k = a'
        · simp [readCell, h]
        · simp [readCell, h, Ne.symm h]
      · simp only [readCell, ih]
        by_cases h : k = a'
        · simp [h]; omega
        · simp [h]

theorem mem_keys_writeCell (m : List Host.Cell) (a : Nat) (b : Byte) (k : Nat) :
    k ∈ (writeCell m a b).map Prod.fst → k = a ∨ k ∈ m.map Prod.fst := by
  induction m with
  | nil => simp [writeCell]
  | cons c rest ih =>
    obtain ⟨j, x⟩ := c
    simp only [writeCell]
    split
    · simp
    · split
      · simp; tauto
      · intro h
        simp only [List.map_cons, List.mem_cons] at h ⊢
        rcases h with h | h
        · exact .inr (.inl h)
        · rcases ih h with h | h
          · exact .inl h
          · exact .inr (.inr h)

theorem writeCell_wf (m : List Host.Cell) (a : Nat) (b : Byte) (h : Memory.wf m) : Memory.wf (writeCell m a b) := by
  induction m with
  | nil => simp [writeCell, Memory.wf]
  | cons c rest ih =>
    obtain ⟨k, x⟩ := c
    have hk : ∀ j ∈ rest.map Prod.fst, k < j := (List.pairwise_cons.mp h).1
    have hr : Memory.wf rest := (List.pairwise_cons.mp h).2
    simp only [writeCell]
    split
    · rename_i hlt
      refine List.pairwise_cons.mpr ⟨?_, h⟩
      intro j hj
      simp only [List.map_cons, List.mem_cons] at hj
      rcases hj with rfl | hj
      · exact hlt
      · exact lt_trans hlt (hk j hj)
    · split
      · subst_vars
        exact List.pairwise_cons.mpr ⟨hk, hr⟩
      · rename_i h1 h2
        refine List.pairwise_cons.mpr ⟨?_, ih hr⟩
        intro j hj
        rcases mem_keys_writeCell rest a b j hj with rfl | hj
        · show k < j
          omega
        · exact hk j hj

/-! ## Runs of cells -/

theorem readCell_writeCells (v : List Byte) (m : List Host.Cell) (a a' : Nat) :
    readCell (writeCells m a v) a' = if a ≤ a' ∧ a' < a + v.length then v[a' - a]? else readCell m a' := by
  induction v generalizing m a with
  | nil => simp [writeCells]
  | cons b rest ih =>
    simp only [writeCells, ih, readCell_writeCell, List.length_cons]
    by_cases h : a' = a
    · subst h
      simp
    · by_cases h' : a + 1 ≤ a' ∧ a' < a + 1 + rest.length
      · rw [if_pos h', if_pos (by omega)]
        obtain ⟨d, rfl⟩ : ∃ d, a' = a + 1 + d := ⟨a' - (a + 1), by omega⟩
        have h1 : a + 1 + d - (a + 1) = d := by omega
        have h2 : a + 1 + d - a = d + 1 := by omega
        rw [h1, h2, List.getElem?_cons_succ]
      · rw [if_neg h', if_neg h, if_neg (by omega)]

/-- A write leaves every address outside it alone. -/
theorem readCell_writeCells_outside (v : List Byte) (m : List Host.Cell) (a a' : Nat)
    (h : ¬ (a ≤ a' ∧ a' < a + v.length)) : readCell (writeCells m a v) a' = readCell m a' := by
  rw [readCell_writeCells, if_neg h]

theorem writeCells_wf (v : List Byte) (m : List Host.Cell) (a : Nat) (h : Memory.wf m) : Memory.wf (writeCells m a v) := by
  induction v generalizing m a with
  | nil => exact h
  | cons b rest ih => exact ih _ _ (writeCell_wf m a b h)

theorem mem_keys_writeCells (v : List Byte) (m : List Host.Cell) (a k : Nat) :
    k ∈ (writeCells m a v).map Prod.fst → (a ≤ k ∧ k < a + v.length) ∨ k ∈ m.map Prod.fst := by
  induction v generalizing m a with
  | nil => exact .inr
  | cons b rest ih =>
    intro h
    rcases ih _ _ h with h | h
    · left; simp only [List.length_cons]; omega
    · rcases mem_keys_writeCell m a b k h with rfl | h
      · left; simp
      · exact .inr h

/-- A run of cells reads as a byte sequence exactly when each of its cells holds that sequence's byte. -/
theorem readCells_eq_some (m : List Host.Cell) (a n : Nat) (l : List Byte) :
    readCells m a n = some l ↔ l.length = n ∧ ∀ i, i < n → readCell m (a + i) = l[i]? := by
  induction n generalizing a l with
  | zero =>
    simp only [readCells, Option.some.injEq, Nat.not_lt_zero, false_implies, implies_true, and_true]
    constructor
    · rintro rfl; rfl
    · intro h; exact (List.eq_nil_of_length_eq_zero h).symm
  | succ n ih =>
    simp only [readCells]
    constructor
    · intro h
      cases hb : readCell m a with
      | none => simp [hb] at h
      | some b =>
        rw [hb] at h
        simp only [Option.map_eq_some_iff] at h
        obtain ⟨l', hl', rfl⟩ := h
        obtain ⟨h1, h2⟩ := (ih _ _).mp hl'
        refine ⟨by simp [h1], ?_⟩
        intro i hi
        cases i with
        | zero => simpa using hb
        | succ i =>
          have := h2 i (by omega)
          rw [show a + (i + 1) = a + 1 + i by omega, this, List.getElem?_cons_succ]
    · rintro ⟨h1, h2⟩
      cases l with
      | nil => simp at h1
      | cons b l' =>
        have h0 := h2 0 (by omega)
        simp only [Nat.add_zero, List.getElem?_cons_zero] at h0
        have hr : readCells m (a + 1) n = some l' := by
          rw [ih]
          refine ⟨by simpa using h1, ?_⟩
          intro i hi
          have := h2 (i + 1) (by omega)
          rw [show a + (i + 1) = a + 1 + i by omega, List.getElem?_cons_succ] at this
          exact this
        simp [h0, hr]

theorem readCells_length {m : List Host.Cell} {a n : Nat} {l : List Byte} (h : readCells m a n = some l) :
    l.length = n := ((readCells_eq_some m a n l).mp h).1

/-- A run whose cells are all written reads as some byte sequence. -/
theorem readCells_isSome (m : List Host.Cell) (a n : Nat) (h : ∀ i, i < n → (readCell m (a + i)).isSome = true) :
    ∃ l, readCells m a n = some l := by
  induction n generalizing a with
  | zero => exact ⟨[], rfl⟩
  | succ n ih =>
    obtain ⟨l, hl⟩ := ih (a + 1) fun i hi => by
      have := h (i + 1) (by omega)
      rwa [show a + (i + 1) = a + 1 + i by omega] at this
    have h0 := h 0 (by omega)
    obtain ⟨b, hb⟩ := Option.isSome_iff_exists.mp h0
    exact ⟨b :: l, by simp only [Nat.add_zero] at hb; simp [readCells, hb, hl]⟩

/-- Reading less of a run, from further on, is dropping and taking. -/
theorem readCells_drop {m : List Host.Cell} {a n : Nat} {l : List Byte} (h : readCells m a n = some l) (j k : Nat)
    (hk : j + k ≤ n) : readCells m (a + j) k = some ((l.drop j).take k) := by
  obtain ⟨h1, h2⟩ := (readCells_eq_some m a n l).mp h
  rw [readCells_eq_some]
  refine ⟨by simp [h1]; omega, ?_⟩
  intro i hi
  rw [List.getElem?_take, if_pos hi, List.getElem?_drop, Nat.add_assoc]
  exact h2 (j + i) (by omega)

/-- A run next to a run. -/
theorem readCells_append {m : List Host.Cell} {a n k : Nat} {l l' : List Byte} (h : readCells m a n = some l)
    (h' : readCells m (a + n) k = some l') : readCells m a (n + k) = some (l ++ l') := by
  obtain ⟨h1, h2⟩ := (readCells_eq_some m a n l).mp h
  obtain ⟨h3, h4⟩ := (readCells_eq_some m (a + n) k l').mp h'
  rw [readCells_eq_some]
  refine ⟨by simp [h1, h3], ?_⟩
  intro i hi
  by_cases hi' : i < n
  · rw [h2 i hi', List.getElem?_append_left (by omega)]
  · have := h4 (i - n) (by omega)
    rw [show a + n + (i - n) = a + i by omega] at this
    rw [this, List.getElem?_append_right (by omega), h1]

/-- What has just been written reads back. -/
theorem readCells_writeCells (m : List Host.Cell) (a : Nat) (v : List Byte) :
    readCells (writeCells m a v) a v.length = some v := by
  rw [readCells_eq_some]
  refine ⟨rfl, ?_⟩
  intro i hi
  rw [readCell_writeCells, if_pos (by omega)]
  congr 1
  omega

/-- A run that a write does not touch reads as before. -/
theorem readCells_writeCells_outside (m : List Host.Cell) (a : Nat) (v : List Byte) (a' n : Nat)
    (h : a' + n ≤ a ∨ a + v.length ≤ a') : readCells (writeCells m a v) a' n = readCells m a' n := by
  have key : ∀ i, i < n → readCell (writeCells m a v) (a' + i) = readCell m (a' + i) := fun i hi =>
    readCell_writeCells_outside v m a (a' + i) (by omega)
  cases hr : readCells m a' n with
  | some l =>
    rw [readCells_eq_some] at hr ⊢
    exact ⟨hr.1, fun i hi => by rw [key i hi, hr.2 i hi]⟩
  | none =>
    cases hw : readCells (writeCells m a v) a' n with
    | none => rfl
    | some l =>
      rw [readCells_eq_some] at hw
      have : readCells m a' n = some l := by
        rw [readCells_eq_some]
        exact ⟨hw.1, fun i hi => by rw [← key i hi, hw.2 i hi]⟩
      rw [hr] at this
      cases this

/-! ## MemRead and MemWrite -/

/-- What `memRead` does when it answers. -/
theorem memRead_ok {s : State} {a n : Nat} {l : List Byte} :
    memRead s a n = .ok l ↔ a + n ≤ s.cfg.cap ∧ readCells s.buf a n = some l := by
  unfold memRead
  split
  · rename_i h
    cases hr : readCells s.buf a n <;> simp [h]
  · rename_i h
    simp [h]

/-- What `memWrite` does when it answers. -/
theorem memWrite_ok {s t : State} {a : Nat} {v : List Byte} :
    memWrite s a v = .ok t ↔ a + v.length ≤ s.cfg.cap ∧ t = { s with buf := writeCells s.buf a v } := by
  unfold memWrite
  split <;> rename_i h <;> simp [h, eq_comm]

/-- `memWrite` keeps the canonical form of BUF and keeps it inside CAP. -/
theorem memWrite_wf {s t : State} {a : Nat} {v : List Byte} (h : memWrite s a v = .ok t) (hw : Memory.wf s.buf)
    (hc : ∀ c ∈ s.buf, c.1 < s.cfg.cap) : Memory.wf t.buf ∧ ∀ c ∈ t.buf, c.1 < t.cfg.cap := by
  obtain ⟨h1, rfl⟩ := memWrite_ok.mp h
  refine ⟨writeCells_wf v _ a hw, ?_⟩
  intro c hc'
  rcases mem_keys_writeCells v s.buf a c.1 (List.mem_map_of_mem hc') with h | h
  · show c.1 < s.cfg.cap
    omega
  · obtain ⟨d, hd, he⟩ := List.mem_map.mp h
    have := hc d hd
    show c.1 < s.cfg.cap
    omega

end Sys2Proof.Machine
end

