-- ==== Sys2Proof/Laws/Parser.lean ====
section
/-! SUPPORT. The frame parser: what each part of a parse answers, in terms of the bytes of the window. -/

namespace Sys2Proof.Machine

/-- The end of a parse once `pe - ps` payload bytes have been read (R126 to R129). -/
theorem finishFrame_eq (w : List Byte) (len : Byte) (ps pe : Nat) (reply : Reply) :
    finishFrame w len ps pe reply =
      if pe - ps ≠ len.toNat then .error .invalidFrame
      else if w.length < pe + 3 then .error .incompleteData
      else if be2 (w.getD pe 0#8) (w.getD (pe + 1) 0#8) ≠ crc16 ((w.drop ps).take (pe - ps)) then
        .error (.checksumMismatch (be2 (w.getD pe 0#8) (w.getD (pe + 1) 0#8)) (crc16 ((w.drop ps).take (pe - ps))))
      else if w.getD (pe + 2) 0#8 ≠ endMarker then .error .invalidFrame
      else .ok (pe + 3, reply) := by
  unfold finishFrame
  by_cases h1 : pe - ps ≠ len.toNat
  · rw [if_pos h1, if_pos h1]
  · rw [if_neg h1, if_neg h1, rdU16_eq]
    by_cases h2 : pe + 2 ≤ w.length
    · rw [if_pos h2]
      simp only [rdU8_eq]
      by_cases h3 : pe + 2 + 1 ≤ w.length
      · rw [if_pos h3, if_neg (by omega)]
      · rw [if_neg h3, if_pos (by omega)]
    · rw [if_neg h2, if_pos (by omega)]

/-- `unpack_values` at a cursor inside the window. -/
theorem unpackValues_eq (w : List Byte) (p : Nat) (h : p ≤ w.length) :
    unpackValues w p = if p + 73 ≤ w.length then .ok (readInto w allFields zeroValues p, p + 73)
      else .error .incompleteData := by
  rw [unpackValues, readFields_eq _ _ _ _ h, fieldsSize_allFields]

/-- `unpack_selective` at cursor 3, after START, LENGTH and id. -/
theorem unpackSelective_eq (w : List Byte) :
    unpackSelective w 3 =
      if 7 + fieldsSize (selectedFields (maskOf w)) ≤ w.length then
        .ok (readInto w (selectedFields (maskOf w)) zeroValues 7, 7 + fieldsSize (selectedFields (maskOf w)))
      else .error .incompleteData := by
  rw [unpackSelective, rdU32_eq]
  by_cases h : 3 + 4 ≤ w.length
  · rw [if_pos h]
    exact readFields_eq w _ zeroValues 7 h
  · rw [if_neg h, if_neg (by omega)]

/-- The record a window delivers when it is a frame. -/
def valuesOf (w : List Byte) : Values :=
  if w.getD 2 0#8 = idGetValues then readInto w allFields zeroValues 3
  else readInto w (selectedFields (maskOf w)) zeroValues 7

/-- The kind a window delivers when it is a frame. -/
def kindOf (w : List Byte) : ReplyKind :=
  if w.getD 2 0#8 = idGetValues then .getValues else .getValuesSelective

theorem calledLength_bounds (w : List Byte) : 5 ≤ calledLength w ∧ calledLength w ≤ 78 := by
  unfold calledLength
  have := fieldsSize_selected_le (maskOf w)
  split <;> omega

/-- The part of the table of R136 after the dispatch on the id, with the whole reply. -/
def verdictOfFrame (w : List Byte) : Except Err (Nat × Reply) :=
  if w.length < 2 + calledLength w then .error .incompleteData
  else if calledLength w ≠ (w.getD 1 0#8).toNat then .error .invalidFrame
  else if w.length < calledLength w + 5 then .error .incompleteData
  else if be2 (w.getD (calledLength w + 2) 0#8) (w.getD (calledLength w + 3) 0#8) ≠
      crc16 ((w.drop 2).take (calledLength w)) then
    .error (.checksumMismatch (be2 (w.getD (calledLength w + 2) 0#8) (w.getD (calledLength w + 3) 0#8))
      (crc16 ((w.drop 2).take (calledLength w))))
  else if w.getD (calledLength w + 4) 0#8 ≠ endMarker then .error .invalidFrame
  else .ok (calledLength w + 5, ⟨kindOf w, valuesOf w⟩)

/-- The parse of a window whose id is 4, from its id on. -/
theorem parseGetValues_eq (w : List Byte) (h : w.getD 2 0#8 = idGetValues) (h3 : 3 ≤ w.length) :
    parseGetValues w (w.getD 1 0#8) 2 3 = verdictOfFrame w := by
  have hc : calledLength w = 74 := by rw [calledLength, if_pos h]
  have hk : kindOf w = .getValues := by rw [kindOf, if_pos h]
  have hv : valuesOf w = readInto w allFields zeroValues 3 := by rw [valuesOf, if_pos h]
  rw [parseGetValues, unpackValues_eq _ _ h3, verdictOfFrame, hc, hk, hv]
  by_cases h1 : 3 + 73 ≤ w.length
  · rw [if_pos h1]
    simp only [finishFrame_eq]
    rw [if_neg (by omega : ¬ w.length < 2 + 74)]
  · rw [if_neg h1, if_pos (by omega)]

/-- The parse of a window whose id is 50, from its id on. -/
theorem parseSelective_eq (w : List Byte) (h : w.getD 2 0#8 = idGetValuesSelective) :
    parseSelective w (w.getD 1 0#8) 2 3 = verdictOfFrame w := by
  have hne : w.getD 2 0#8 ≠ idGetValues := by rw [h]; decide
  have hc : calledLength w = 5 + fieldsSize (selectedFields (maskOf w)) := by rw [calledLength, if_neg hne]
  have hk : kindOf w = .getValuesSelective := by rw [kindOf, if_neg hne]
  have hv : valuesOf w = readInto w (selectedFields (maskOf w)) zeroValues 7 := by rw [valuesOf, if_neg hne]
  rw [parseSelective, unpackSelective_eq, verdictOfFrame, hc, hk, hv]
  generalize fieldsSize (selectedFields (maskOf w)) = n
  by_cases h1 : 7 + n ≤ w.length
  · rw [if_pos h1, if_neg (by omega : ¬ w.length < 2 + (5 + n))]
    simp only [finishFrame_eq]
    rw [show 7 + n - 2 = 5 + n by omega, show 7 + n + 3 = 5 + n + 5 by omega, show 7 + n = 5 + n + 2 by omega]
  · rw [if_neg h1, if_pos (by omega)]

/-- Everything a parse can answer. -/
theorem parse_eq (w : List Byte) :
    parse w =
      if w.length = 0 then .error .incompleteData
      else if w.getD 0 0#8 ≠ startMarker then .error .invalidFrame
      else if w.length < 3 then .error .incompleteData
      else if w.getD 2 0#8 ≠ idGetValues ∧ w.getD 2 0#8 ≠ idGetValuesSelective then
        .error (.unknownPacket (w.getD 2 0#8))
      else verdictOfFrame w := by
  unfold parse
  rw [rdU8_eq]
  by_cases h0 : w.length = 0
  · rw [if_pos h0, if_neg (by omega)]
  · rw [if_neg h0, if_pos (by omega)]
    simp only
    by_cases h1 : w.getD 0 0#8 ≠ startMarker
    · rw [if_pos h1, if_pos h1]
    · rw [if_neg h1, if_neg h1, rdU8_eq]
      by_cases h2 : w.length < 3
      · rw [if_pos h2]
        by_cases h3 : 0 + 1 + 1 ≤ w.length
        · rw [if_pos h3]
          simp only [rdU8_eq]
          rw [if_neg (by omega)]
        · rw [if_neg h3]
      · rw [if_neg h2, if_pos (by omega)]
        simp only [rdU8_eq]
        rw [if_pos (by omega)]
        simp only [parseById]
        by_cases h4 : w.getD 2 0#8 = idGetValues
        · have : w.getD (0+1+1) 0#8 = idGetValues := h4
          rw [if_pos this, if_neg (by tauto)]
          exact parseGetValues_eq w h4 (by omega)
        · have h4' : ¬ w.getD (0+1+1) 0#8 = idGetValues := h4
          rw [if_neg h4']
          by_cases h5 : w.getD 2 0#8 = idGetValuesSelective
          · have : w.getD (0+1+1) 0#8 = idGetValuesSelective := h5
            rw [if_pos this, if_neg (by tauto)]
            exact parseSelective_eq w h5
          · have h5' : ¬ w.getD (0+1+1) 0#8 = idGetValuesSelective := h5
            rw [if_neg h5', if_pos ⟨h4, h5⟩]

/-- A success: the window starts with a frame of the length its id and mask call for (R129). -/
theorem parse_ok {w : List Byte} {n : Nat} {r : Reply} (h : parse w = .ok (n, r)) :
    w.getD 0 0#8 = startMarker ∧ (w.getD 2 0#8 = idGetValues ∨ w.getD 2 0#8 = idGetValuesSelective) ∧
      n = calledLength w + 5 ∧ n ≤ w.length ∧ (w.getD 1 0#8).toNat = calledLength w ∧
      be2 (w.getD (calledLength w + 2) 0#8) (w.getD (calledLength w + 3) 0#8) = crc16 ((w.drop 2).take (calledLength w)) ∧
      w.getD (calledLength w + 4) 0#8 = endMarker ∧ r = ⟨kindOf w, valuesOf w⟩ := by
  rw [parse_eq] at h
  unfold verdictOfFrame at h
  split_ifs at h with h0 h1 h2 h3 h4 h5 h6 h7 h8
  simp only [Except.ok.injEq, Prod.mk.injEq] at h
  refine ⟨not_not.mp h1, by tauto, h.1.symm, by omega, (not_not.mp h5).symm, not_not.mp h7, not_not.mp h8, h.2.symm⟩

/-- `parse` never raises BufferTooSmall (R205). -/
theorem parse_ne_bufferTooSmall (w : List Byte) : parse w ≠ .error .bufferTooSmall := by
  rw [parse_eq]
  unfold verdictOfFrame
  split_ifs <;> simp

end Sys2Proof.Machine
end

