-- ==== Sys2Proof/Laws/PerInstr.lean ====
section
/-! SUPPORT. What holds of every instruction, one lemma per constructor: the first bytes of its encoding are its row of
spec/opcode_table.json. -/

namespace Sys2Proof.Laws.TableSelector

open Sys2Proof

/-- The mask and the match of each selector byte of an instruction's row: one byte for a host operation, three for a frame.
The row of RX.GET_VALUES fixes LENGTH, but "the parser dispatches on START and id only (dispatch mask 0xFF00FF)": an
instruction carries any LENGTH, so its LENGTH byte is free here. -/
def row : Instr → List (Byte × Byte)
  | .crcClr => [(0xFF#8, 0x00#8)]
  | .crcUpd _ => [(0xFF#8, 0x01#8)]
  | .crcRd => [(0xFF#8, 0x02#8)]
  | .fpDec _ => [(0xFF#8, 0x10#8)]
  | .sbFeed _ => [(0xFF#8, 0x20#8)]
  | .sbPull => [(0xFF#8, 0x21#8)]
  | .fbEnc _ _ => [(0xFF#8, 0x30#8)]
  | .rxGetValues _ _ => [(0xFF#8, 0x02#8), (0x00#8, 0x00#8), (0xFF#8, 0x04#8)]
  | .rxGetValuesSelective _ _ => [(0xFF#8, 0x02#8), (0x00#8, 0x00#8), (0xFF#8, 0x32#8)]
  | .txGetValues _ => [(0xFF#8, 0x02#8), (0xFF#8, 0x01#8), (0xFF#8, 0x04#8)]
  | .txSetCurrent _ _ => [(0xFF#8, 0x02#8), (0xFF#8, 0x05#8), (0xFF#8, 0x06#8)]
  | .txSetRpm _ _ => [(0xFF#8, 0x02#8), (0xFF#8, 0x05#8), (0xFF#8, 0x08#8)]
  | .txSetHandbrake _ _ => [(0xFF#8, 0x02#8), (0xFF#8, 0x05#8), (0xFF#8, 0x0A#8)]
  | .txForwardCan _ _ _ => [(0xFF#8, 0x02#8), (0x00#8, 0x00#8), (0xFF#8, 0x22#8)]
  | .txGetValuesSelective _ _ => [(0xFF#8, 0x02#8), (0xFF#8, 0x05#8), (0xFF#8, 0x32#8)]

/-- The first bytes of the encoding, under the masks of the row, are the row's match. -/
def Statement (i : Instr) : Prop :=
  List.zipWith (fun b r => b &&& r.1) (encode i).2 (row i) = (row i).map Prod.snd

theorem crcClr : Statement .crcClr := by
  simp [Statement, row, encode]
theorem crcUpd (b : Byte) : Statement (.crcUpd b) := by
  simp [Statement, row, encode]; decide
theorem crcRd : Statement .crcRd := by
  simp [Statement, row, encode]; decide
theorem fpDec (w : List Byte) : Statement (.fpDec w) := by
  simp [Statement, row, encode]; decide
theorem sbFeed (d : List Byte) : Statement (.sbFeed d) := by
  simp [Statement, row, encode]; decide
theorem sbPull : Statement .sbPull := by
  simp [Statement, row, encode]; decide
theorem fbEnc (c : Cmd) (n : Nat) : Statement (.fbEnc c n) := by
  simp [Statement, row, encode]; decide
theorem rxGetValues (l : Byte) (r : List Byte) : Statement (.rxGetValues l r) := by
  simp [Statement, row, encode]; decide
theorem rxGetValuesSelective (l : Byte) (r : List Byte) : Statement (.rxGetValuesSelective l r) := by
  simp [Statement, row, encode]; decide
theorem txGetValues (n : Nat) : Statement (.txGetValues n) := by
  simp [Statement, row, encode]; decide
theorem txSetCurrent (v : Word) (n : Nat) : Statement (.txSetCurrent v n) := by
  simp [Statement, row, encode]; decide
theorem txSetRpm (v : Word) (n : Nat) : Statement (.txSetRpm v n) := by
  simp [Statement, row, encode]; decide
theorem txSetHandbrake (v : Word) (n : Nat) : Statement (.txSetHandbrake v n) := by
  simp [Statement, row, encode]; decide
theorem txForwardCan (t : Byte) (c : Cmd) (n : Nat) : Statement (.txForwardCan t c n) := by
  simp [Statement, row, encode]; decide
theorem txGetValuesSelective (m : Word) (n : Nat) : Statement (.txGetValuesSelective m n) := by
  simp [Statement, row, encode]; decide

end Sys2Proof.Laws.TableSelector
end

