-- ==== Sys2Proof/Laws/StreamBuffer.lean ====
section
/-! SUPPORT. The stream buffer: what compaction, the copy and the scan do, once each. -/

namespace Sys2Proof.Machine

/-! ## The unread region -/

/-- Under the invariant the unread region reads as a byte sequence of WR - RD bytes. -/
theorem unread_of_inv {s : State} (h : s.Inv) : ∃ u, unread s = some u ∧ u.length = s.wr - s.rd := by
  obtain ⟨u, hu⟩ := readCells_isSome s.buf s.rd (s.wr - s.rd) h.2.2.2.2.2
  exact ⟨u, hu, readCells_length hu⟩

/-- The unread region written, from its reading as a byte sequence. -/
theorem written_of_unread {s : State} {u : List Byte} (h : unread s = some u) :
    ∀ i, i < s.wr - s.rd → (readCell s.buf (s.rd + i)).isSome = true := by
  intro i hi
  have h1 := (readCells_eq_some _ _ _ _).mp h
  rw [h1.2 i hi, List.getElem?_eq_getElem (by omega)]
  rfl

/-! ## SB.FEED -/

/-- What compaction does when it answers (R161). -/
theorem compact_ok {s t : State} (h : compact s = .ok t) :
    ∃ u, s.rd + (s.wr - s.rd) ≤ s.cfg.cap ∧ unread s = some u ∧
      t = { s with buf := writeCells s.buf 0 u, rd := 0, wr := s.wr - s.rd } := by
  unfold compact at h
  cases hr : memRead s s.rd (s.wr - s.rd) with
  | error f => simp [hr] at h
  | ok u =>
    obtain ⟨h1, h2⟩ := memRead_ok.mp hr
    cases hw : memWrite s 0 u with
    | error f => simp [hr, hw] at h
    | ok s' =>
      obtain ⟨_, rfl⟩ := memWrite_ok.mp hw
      simp only [hr, hw, Except.ok.injEq] at h
      exact ⟨u, h1, h2, h.symm⟩

/-- Compaction answers under the invariant. -/
theorem compact_eq {s : State} {u : List Byte} (h : s.Inv) (hu : unread s = some u) :
    compact s = .ok { s with buf := writeCells s.buf 0 u, rd := 0, wr := s.wr - s.rd } := by
  obtain ⟨-, h1, h2, -⟩ := h
  have hl := readCells_length hu
  have hr : memRead s s.rd (s.wr - s.rd) = .ok u := memRead_ok.mpr ⟨by omega, hu⟩
  have hw : memWrite s 0 u = .ok { s with buf := writeCells s.buf 0 u } := memWrite_ok.mpr ⟨by omega, rfl⟩
  simp only [compact, hr, hw]

/-- What the copy does when it answers (R164). -/
theorem copyIn_ok {data : List Byte} {s t : State} {k : Nat} (h : copyIn data s = .ok (t, k)) :
    k = min data.length (s.cfg.cap - s.wr) ∧
      t = { s with buf := writeCells s.buf s.wr (data.take k), wr := s.wr + k } := by
  unfold copyIn at h
  cases hw : memWrite s s.wr (data.take (min data.length (s.cfg.cap - s.wr))) with
  | error f => simp [hw] at h
  | ok s' =>
    obtain ⟨_, rfl⟩ := memWrite_ok.mp hw
    simp only [hw, Except.ok.injEq, Prod.mk.injEq] at h
    obtain ⟨rfl, rfl⟩ := h
    exact ⟨rfl, rfl⟩

/-- The copy answers when WR is inside BUF. -/
theorem copyIn_eq {data : List Byte} {s : State} (h : s.wr ≤ s.cfg.cap) :
    copyIn data s =
      .ok ({ s with buf := writeCells s.buf s.wr (data.take (min data.length (s.cfg.cap - s.wr))),
                    wr := s.wr + min data.length (s.cfg.cap - s.wr) },
        min data.length (s.cfg.cap - s.wr)) := by
  have hw : memWrite s s.wr (data.take (min data.length (s.cfg.cap - s.wr))) =
      .ok { s with buf := writeCells s.buf s.wr (data.take (min data.length (s.cfg.cap - s.wr))) } :=
    memWrite_ok.mpr ⟨by simp; omega, rfl⟩
  simp only [copyIn, hw]

/-- Everything SB.FEED can do to the buffer when it answers (R160 to R164): no compaction, or compaction, or compaction and
discard; then the copy at WR. -/
theorem feed_cases {data : List Byte} {s t : State} {k : Nat} (h : feed data s = .ok (t, k)) :
    ∃ s', k = min data.length (s'.cfg.cap - s'.wr) ∧
      t = { s' with buf := writeCells s'.buf s'.wr (data.take k), wr := s'.wr + k } ∧
      ((data.length ≤ s.cfg.cap - s.wr ∧ s' = s) ∨
       ∃ u, s.cfg.cap - s.wr < data.length ∧ unread s = some u ∧
        ((s.wr - s.rd ≠ s.cfg.cap ∧ s' = { s with buf := writeCells s.buf 0 u, rd := 0, wr := s.wr - s.rd }) ∨
         (s.wr - s.rd = s.cfg.cap ∧ s' = { s with buf := writeCells s.buf 0 u, rd := 0, wr := 0 }))) := by
  unfold feed makeRoom at h
  by_cases hroom : s.cfg.cap - s.wr < data.length
  · rw [if_pos hroom] at h
    cases hc : compact s with
    | error f => simp [hc] at h
    | ok s1 =>
      simp only [hc] at h
      obtain ⟨u, -, hu, rfl⟩ := compact_ok hc
      obtain ⟨hk, ht⟩ := copyIn_ok h
      refine ⟨_, hk, ht, .inr ⟨u, hroom, hu, ?_⟩⟩
      by_cases hf : s.wr - s.rd = s.cfg.cap
      · exact .inr ⟨hf, by simp [discardIfFull, hf]⟩
      · exact .inl ⟨hf, by simp [discardIfFull, hf]⟩
  · rw [if_neg hroom] at h
    obtain ⟨hk, ht⟩ := copyIn_ok h
    exact ⟨s, hk, ht, .inl ⟨by omega, rfl⟩⟩

/-- SB.FEED answers under the invariant. -/
theorem feed_answers {data : List Byte} {s : State} (h : s.Inv) : ∃ t k, feed data s = .ok (t, k) := by
  obtain ⟨u, hu, hl⟩ := unread_of_inv h
  unfold feed makeRoom
  by_cases hroom : s.cfg.cap - s.wr < data.length
  · rw [if_pos hroom, compact_eq h hu]
    simp only
    obtain ⟨-, h1, h2, -⟩ := h
    rw [copyIn_eq]
    · exact ⟨_, _, rfl⟩
    · simp only [discardIfFull]
      split <;> simp; omega
  · rw [if_neg hroom]
    simp only
    rw [copyIn_eq h.2.2.1]
    exact ⟨_, _, rfl⟩

/-! ## SB.PULL -/

/-- The next unread bytes of the abstract pull are a suffix of the unread bytes. -/
theorem absPull_length_le (u : List Byte) : (absPull u).1.length ≤ u.length := by
  induction u with
  | nil => simp [absPull]
  | cons b rest ih =>
    unfold absPull
    split
    · simp
    · simp
    · simp only [List.length_cons]
      omega

theorem absPull_eq_drop (u : List Byte) : (absPull u).1 = u.drop (u.length - (absPull u).1.length) := by
  induction u with
  | nil => simp [absPull]
  | cons b rest ih =>
    have hl := absPull_length_le rest
    unfold absPull
    split
    · rename_i n r hp
      have := (parse_ok hp).2.2.2.1
      simp only [List.length_drop]
      congr 1
      simp only [List.length_cons] at this ⊢
      omega
    · simp
    · rw [List.length_cons, show rest.length + 1 - (absPull rest).1.length =
        (rest.length - (absPull rest).1.length) + 1 by omega, List.drop_succ_cons]
      exact ih

/-- The loop of SB.PULL on an unread region that reads as `u`: the answer is that of the abstract pull, and RD rises to where
its next unread bytes begin; nothing else changes (R165 to R167). -/
theorem pullLoop_eq (u : List Byte) (s : State) (hu : readCells s.buf s.rd u.length = some u)
    (hc : s.rd + u.length ≤ s.cfg.cap) :
    pullLoop u.length s = .ok ({ s with rd := s.rd + (u.length - (absPull u).1.length) }, (absPull u).2) := by
  induction u generalizing s with
  | nil => simp [pullLoop, absPull]
  | cons b rest ih =>
    have hr : memRead s s.rd (rest.length + 1) = .ok (b :: rest) := memRead_ok.mpr ⟨hc, hu⟩
    have hnext := ih { s with rd := s.rd + 1 }
      (by
        have := readCells_drop hu 1 rest.length (by simp; omega)
        simpa using this)
      (by simp only [List.length_cons] at hc; show s.rd + 1 + rest.length ≤ s.cfg.cap; omega)
    have hl := absPull_length_le rest
    have hadd : s.rd + 1 + (rest.length - (absPull rest).1.length) = s.rd + (rest.length + 1 - (absPull rest).1.length) := by
      omega
    rw [List.length_cons]
    unfold pullLoop absPull
    rw [hr]
    simp only
    cases hp : parse (b :: rest) with
    | ok x =>
      have := (parse_ok hp).2.2.2.1
      simp only [List.length_drop, List.length_cons] at this ⊢
      congr 3
      congr 1
      omega
    | error e =>
      cases e with
      | incompleteData => simp
      | checksumMismatch a c => simp only [hnext, hadd]
      | unknownPacket i => simp only [hnext, hadd]
      | invalidFrame => simp only [hnext, hadd]
      | bufferTooSmall => simp only [hnext, hadd]

/-- What SB.PULL leaves alone whenever it answers (R167): everything but RD, which does not fall. -/
theorem pullLoop_frame {n : Nat} {s t : State} {r : Option Reply} (h : pullLoop n s = .ok (t, r)) :
    s.rd ≤ t.rd ∧ t = { s with rd := t.rd } := by
  induction n generalizing s with
  | zero =>
    simp only [pullLoop, Except.ok.injEq, Prod.mk.injEq] at h
    obtain ⟨rfl, -⟩ := h
    exact ⟨le_refl _, rfl⟩
  | succ n ih =>
    unfold pullLoop at h
    cases hr : memRead s s.rd (n + 1) with
    | error f => simp [hr] at h
    | ok w =>
      rw [hr] at h
      simp only at h
      have skip : pullLoop n { s with rd := s.rd + 1 } = .ok (t, r) → s.rd ≤ t.rd ∧ t = { s with rd := t.rd } := by
        intro h'
        obtain ⟨h1, h2⟩ := ih h'
        refine ⟨?_, h2⟩
        simp only at h1
        omega
      cases hp : parse w with
      | ok x =>
        simp only [hp, Except.ok.injEq, Prod.mk.injEq] at h
        obtain ⟨rfl, -⟩ := h
        exact ⟨Nat.le_add_right _ _, rfl⟩
      | error e =>
        rw [hp] at h
        cases e with
        | incompleteData =>
          simp only [Except.ok.injEq, Prod.mk.injEq] at h
          obtain ⟨rfl, -⟩ := h
          exact ⟨le_refl _, rfl⟩
        | checksumMismatch a c => exact skip h
        | unknownPacket i => exact skip h
        | invalidFrame => exact skip h
        | bufferTooSmall => exact skip h

/-- SB.PULL under the invariant. -/
theorem pull_eq {s : State} {u : List Byte} (h : s.Inv) (hu : unread s = some u) :
    pull s = .ok ({ s with rd := s.rd + (u.length - (absPull u).1.length) }, (absPull u).2) := by
  have hl := readCells_length hu
  obtain ⟨-, h1, h2, -⟩ := h
  unfold pull
  rw [← hl]
  exact pullLoop_eq u s (by rw [hl]; exact hu) (by omega)

end Sys2Proof.Machine
end

