-- ==== Sys2Proof/Machine/Flags.lean ====
section
/-! DEFINITION. The block has no flags and no condition codes (spec/10_state.md R27): "every outcome is in the operation's own
response". What stands in their place is the numeric code of a response, spec/60_exceptions.md R200. -/

namespace Sys2Proof.Machine

/-- The code of an error, R200. -/
def errCode : Err → Nat
  | .incompleteData => 1
  | .checksumMismatch _ _ => 2
  | .unknownPacket _ => 3
  | .invalidFrame => 4
  | .bufferTooSmall => 5

/-- The code of a response, R200: 0 is success. -/
def responseCode : Response → Nat
  | .done => 0
  | .checksum _ => 0
  | .decoded _ _ => 0
  | .copied _ => 0
  | .pulled _ => 0
  | .frame _ => 0
  | .error e => errCode e

end Sys2Proof.Machine
end

