-- ==== Sys2Proof/Tests/Slice0.lean ====
section
/-! SUPPORT. The model's own tests. Expected values come from spec/95_test_vectors.md (V<n>), spec/30_encoding.md and
spec/opcode_table.json; a `witness_` theorem shows a concrete state and operands that meet the hypotheses of a statement. -/

namespace Sys2Proof.Tests

open Sys2Proof Sys2Proof.Machine

/-! ## Helpers -/

/-- Bytes from their numbers. -/
def bs (l : List Nat) : List Byte := l.map (BitVec.ofNat 8)

/-- A block whose unread bytes `u` stand at `rd` and above, after one byte 0xEE in front of them if there is room. -/
def block (cap : Nat) (nest : Fin 126) (rd : Nat) (u : List Byte) : State :=
  ⟨0#16, writeCells (if rd = 0 then [] else [(rd - 1, 0xEE#8)]) rd u, rd, rd + u.length, ⟨cap, 8, nest⟩, [], []⟩

/-- A block about to take one message. -/
def asked (s : State) (channel : Channel) (bytes : List Byte) : State := { s with inputs := [.message channel bytes] }

/-- The state after, if there is one. -/
def after : Host.Outcome State Fault Refusal → Option State
  | .next t => some t
  | .fault _ => none
  | .refused _ => none

/-- The responses after. -/
def answers (o : Host.Outcome State Fault Refusal) : Option (List Response) := (after o).map (·.responses)

/-- `n` levels of ForwardCan around GetValues. -/
def nested : Nat → Cmd
  | 0 => .getValues
  | n + 1 => .forwardCan 1#8 (nested n)

/-- V33. -/
def g : List Byte := bs [0x02, 0x07, 0x32, 0x00, 0x00, 0x01, 0x00, 0x01, 0x77, 0x72, 0x9B, 0x03]
/-- The record of V33. -/
def gValues : Values := { zeroValues with voltageIn := 375 }
/-- The reply of V33. -/
def gReply : Reply := ⟨.getValuesSelective, gValues⟩
/-- V32. -/
def f32 : List Byte := bs [0x02, 0x05, 0x32, 0x00, 0x00, 0x00, 0x00, 0x48, 0x6D, 0x03]
/-- V30. -/
def f30 : List Byte :=
  bs [0x02, 0x4A, 0x04, 0x01, 0x14] ++ List.replicate 24 0#8 ++ bs [0x01, 0x77] ++ List.replicate 29 0#8 ++ bs [0x14] ++
    List.replicate 15 0#8 ++ bs [0x3E, 0x81, 0x03]
/-- The record of V30. -/
def f30Values : Values := { zeroValues with tempMosfet := 276, voltageIn := 375, controllerId := 20 }

/-! ## WellFormed: each check refuses an ill-formed term -/

theorem test_wellFormed_refuses_126_levels : (Instr.fbEnc (nested 126) 6).wellFormed = false := by
  decide +kernel
theorem test_wellFormed_refuses_125_levels_under_forwardCan :
    (Instr.txForwardCan 1#8 (nested 125) 6).wellFormed = false := by decide +kernel
theorem test_wellFormed_admits_125_levels :
    (Instr.fbEnc (nested 125) 6).wellFormed = true ∧ (Instr.txForwardCan 1#8 (nested 124) 6).wellFormed = true := by
  decide +kernel
theorem test_config_refuses_no_buffer : ¬ Config.WellFormed ⟨0, 8, 3⟩ := by decide
theorem test_config_refuses_narrow_cursors : ¬ Config.WellFormed ⟨256, 8, 3⟩ := by decide
theorem test_config_admits : Config.WellFormed ⟨255, 8, 3⟩ := by decide

/-! ## Decoding: a word of every constructor, written out -/

theorem test_decode_crcClr : decode .request [0x00#8] = .ok .crcClr := rfl
theorem test_decode_crcUpd : decode .request [0x01#8, 0x04#8] = .ok (.crcUpd 0x04#8) := rfl
theorem test_decode_crcRd : decode .request [0x02#8] = .ok .crcRd := rfl
theorem test_decode_fpDec : decode .request [0x10#8, 0x02#8, 0x07#8] = .ok (.fpDec [0x02#8, 0x07#8]) := rfl
theorem test_decode_sbFeed : decode .request [0x20#8, 0x55#8, 0x02#8, 0x05#8] = .ok (.sbFeed [0x55#8, 0x02#8, 0x05#8]) := rfl
theorem test_decode_sbPull : decode .request [0x21#8] = .ok .sbPull := rfl
theorem test_decode_fbEnc :
    decode .request [0x30#8, 5#8, 0xFF#8, 1#8, 0xFF#8, 0xFF#8, 0xFF#8, 0xFF#8, 0x01#8, 0x00#8] =
      .ok (.fbEnc (.forwardCan 0xFF#8 (.setCurrent 0xFFFFFFFF#32)) 256) := rfl
theorem test_decode_rxGetValues :
    decode .rx [0x02#8, 0x4A#8, 0x04#8, 0x01#8, 0x14#8] = .ok (.rxGetValues 0x4A#8 [0x01#8, 0x14#8]) := rfl
theorem test_decode_rxGetValuesSelective :
    decode .rx [0x02#8, 0x05#8, 0x32#8, 0x00#8, 0x00#8, 0x00#8, 0x00#8, 0x48#8, 0x6D#8, 0x03#8] =
      .ok (.rxGetValuesSelective 0x05#8 [0x00#8, 0x00#8, 0x00#8, 0x00#8, 0x48#8, 0x6D#8, 0x03#8]) := rfl
theorem test_decode_txGetValues : decode .tx [0x02#8, 0x01#8, 0x04#8, 0x06#8] = .ok (.txGetValues 6) := rfl
theorem test_decode_txSetCurrent :
    decode .tx [0x02#8, 0x05#8, 0x06#8, 0xFF#8, 0xFF#8, 0xFB#8, 0x2E#8, 0x0A#8] =
      .ok (.txSetCurrent (s2u32 (-1234)) 10) := by decide
theorem test_decode_txSetRpm :
    decode .tx [0x02#8, 0x05#8, 0x08#8, 0x00#8, 0x00#8, 0x0B#8, 0xB8#8, 0x0A#8] = .ok (.txSetRpm 3000#32 10) := rfl
theorem test_decode_txSetHandbrake :
    decode .tx [0x02#8, 0x05#8, 0x0A#8, 0x00#8, 0x00#8, 0x09#8, 0xC4#8, 0x0A#8] = .ok (.txSetHandbrake 2500#32 10) := rfl
theorem test_decode_txForwardCan :
    decode .tx [0x02#8, 0x03#8, 0x22#8, 0x05#8, 0#8, 0x08#8] = .ok (.txForwardCan 5#8 .getValues 8) := rfl
theorem test_decode_txGetValuesSelective :
    decode .tx [0x02#8, 0x05#8, 0x32#8, 0x80#8, 0x00#8, 0x00#8, 0x01#8, 0x0A#8] =
      .ok (.txGetValuesSelective 0x80000001#32 10) := rfl
theorem test_decode_rx_other_id_is_fpDec : decode .rx [0x02#8, 0x00#8, 0xDE#8] = .ok (.fpDec [0x02#8, 0x00#8, 0xDE#8]) := rfl

/-- Messages that spell nothing, each by its own name. -/
theorem test_decode_refuses :
    decode .request [] = .error .emptyMessage ∧ decode .request [0x03#8] = .error (.noSuchOperation 0x03#8) ∧
      decode .request [0x01#8] = .error .missingOperand ∧ decode .request [0x21#8, 0#8] = .error .trailingBytes ∧
      decode .request [0x30#8, 6#8] = .error (.noSuchDescriptor 6#8) ∧
      decode .tx [0x02#8, 0x05#8, 0x04#8] = .error (.noSuchCommandFrame 0x02#8 0x05#8 0x04#8) := by decide
theorem test_decode_refuses_126_levels : decode .request (0x30#8 :: encodeCmd (nested 126)) = .error .nestedTooDeep := by
  decide +kernel

/-! ## The rows of spec/opcode_table.json -/

theorem test_table_operations :
    decodeTableWord 8 0x00 = some .crcClr ∧ decodeTableWord 8 0x01 = some (.crcUpd 0#8) ∧ decodeTableWord 8 0x02 = some .crcRd ∧
      decodeTableWord 8 0x10 = some (.fpDec []) ∧ decodeTableWord 8 0x20 = some (.sbFeed []) ∧
      decodeTableWord 8 0x21 = some .sbPull ∧ decodeTableWord 8 0x30 = some (.fbEnc .getValues 0) := by decide
theorem test_table_replies :
    decodeTableWord 24 0x024A04 = some (.rxGetValues 0x4A#8 (List.replicate 80 0#8)) ∧
      decodeTableWord 24 0x020032 = some (.rxGetValuesSelective 0x00#8 (List.replicate 80 0#8)) := by decide
theorem test_table_commands :
    decodeTableWord 24 0x020104 = some (.txGetValues 0) ∧ decodeTableWord 24 0x020506 = some (.txSetCurrent 0#32 0) ∧
      decodeTableWord 24 0x020508 = some (.txSetRpm 0#32 0) ∧ decodeTableWord 24 0x02050A = some (.txSetHandbrake 0#32 0) ∧
      decodeTableWord 24 0x020022 = some (.txForwardCan 0#8 .getValues 0) ∧
      decodeTableWord 24 0x020532 = some (.txGetValuesSelective 0#32 0) := by decide

/-- The rows run as the first instruction after reset, whatever the open parameters are. -/
theorem test_table_words_run_from_reset :
    answers (step (State.reset.withFetchWord 8 0x00)) = some [.done] ∧
      answers (step (State.reset.withFetchWord 8 0x01)) = some [.done] ∧
      answers (step (State.reset.withFetchWord 8 0x02)) = some [.checksum 0#16] ∧
      answers (step (State.reset.withFetchWord 8 0x10)) = some [.error .incompleteData] ∧
      answers (step (State.reset.withFetchWord 8 0x20)) = some [.copied 0] ∧
      answers (step (State.reset.withFetchWord 8 0x21)) = some [.pulled none] ∧
      answers (step (State.reset.withFetchWord 8 0x30)) = some [.error .bufferTooSmall] ∧
      answers (step (State.reset.withFetchWord 24 0x020104)) = some [.error .bufferTooSmall] ∧
      answers (step (State.reset.withFetchWord 24 0x020506)) = some [.error .bufferTooSmall] ∧
      answers (step (State.reset.withFetchWord 24 0x020508)) = some [.error .bufferTooSmall] ∧
      answers (step (State.reset.withFetchWord 24 0x02050A)) = some [.error .bufferTooSmall] ∧
      answers (step (State.reset.withFetchWord 24 0x020532)) = some [.error .bufferTooSmall] := by
  refine ⟨rfl, rfl, rfl, rfl, rfl, rfl, rfl, rfl, rfl, rfl, rfl, rfl⟩
theorem test_reply_words_run_from_reset :
    step (State.reset.withFetchWord 24 0x024A04) = exec (.rxGetValues 0x4A#8 (List.replicate 80 0#8)) State.reset ∧
      answers (step (State.reset.withFetchWord 24 0x020032)) = some [.error .invalidFrame] := by
  refine ⟨rfl, rfl⟩
theorem test_forwardCan_word_is_its_instruction_at_reset :
    step (State.reset.withFetchWord 24 0x020022) = exec (.txForwardCan 0#8 .getValues 0) State.reset := rfl

/-! ## One step of each instruction -/

theorem test_crcClr : after (step (asked { block 8 3 0 [] with crcAcc := 0x4084#16 } .request [0x00#8])) =
    some { block 8 3 0 [] with responses := [.done] } := by decide
/-- V22, V24: the second byte continues from the first. -/
theorem test_crcUpd : (after (step (asked { block 8 3 0 [] with crcAcc := 0x4084#16 } .request [0x01#8, 0x04#8]))).map
    (·.crcAcc) = some 0x8C40#16 := by decide +kernel
/-- V19. -/
theorem test_crcStep_general : crcStep 0x1234#16 0x56#8 = 0x3C40#16 ∧ crcStepByTable 0x1234#16 0x56#8 = 0x3C40#16 := by
  decide +kernel
theorem test_crcRd : answers (step (asked { block 8 3 0 [] with crcAcc := 0x31C3#16 } .request [0x02#8])) =
    some [.checksum 0x31C3#16] := by decide
/-- V67, V68: the GetValues command read as a reply, one byte short of 76 bytes and with 76 bytes. -/
theorem test_fpDec_reads_command_as_reply :
    parse (bs [0x02, 0x01, 0x04, 0x40, 0x84, 0x03] ++ List.replicate 69 0#8) = .error .incompleteData ∧
      parse (bs [0x02, 0x01, 0x04, 0x40, 0x84, 0x03] ++ List.replicate 70 0#8) = .error .invalidFrame := by decide +kernel
/-- V46. -/
theorem test_fpDec_checksum_mismatch : answers (exec (.fpDec (g.set 10 0x9A#8)) (block 8 3 0 [])) =
    some [.error (.checksumMismatch 0x729A#16 0x729B#16)] := by decide +kernel
/-- V60. -/
theorem test_fpDec_unknown_packet : answers (exec (.fpDec (bs [2, 3, 222, 4, 0, 178, 81, 3])) (block 8 3 0 [])) =
    some [.error (.unknownPacket 222#8)] := by decide +kernel
/-- V94, third feed: a full buffer is discarded. -/
theorem test_sbFeed_discards : (after (exec (.sbFeed (bs [0x77, 0x72, 0x9B, 0x03])) (block 8 3 0 (g.take 8)))).map
    (fun t => (t.rd, t.wr, unread t, t.responses)) = some (0, 4, some (bs [0x77, 0x72, 0x9B, 0x03]), [.copied 4]) := by
  decide +kernel
/-- V96, second feed: compaction moves the unread bytes. -/
theorem test_sbFeed_compacts : (after (exec (.sbFeed (g.drop 2)) (block 16 3 10 (g.take 2)))).map
    (fun t => (t.rd, t.wr, unread t, t.responses)) = some (0, 12, some g, [.copied 10]) := by decide +kernel
/-- V97, first pull: one byte skipped, then IncompleteData. -/
theorem test_sbPull_skips_then_waits : (after (exec .sbPull (block 16 3 0 (0x55#8 :: f32.take 7)))).map
    (fun t => (t.rd, t.wr, t.responses)) = some (1, 8, [.pulled none]) := by decide +kernel
/-- V96, second pull. -/
theorem test_sbPull_delivers : (after (exec .sbPull (block 16 3 0 g))).map
    (fun t => (t.rd, t.wr, t.responses)) = some (12, 12, [.pulled (some gReply)]) := by decide +kernel
/-- V80. -/
theorem test_fbEnc_nested :
    answers (exec (.fbEnc (.forwardCan 1#8 (.forwardCan 2#8 (.setRpm 1000#32))) 14) (block 8 3 0 [])) =
      some [.frame (bs [0x02, 0x09, 0x22, 0x01, 0x22, 0x02, 0x08, 0x00, 0x00, 0x03, 0xE8, 0x88, 0x45, 0x03])] := by
  decide +kernel
/-- V89. -/
theorem test_fbEnc_too_small :
    answers (exec (.fbEnc (.forwardCan 1#8 (.forwardCan 2#8 (.setRpm 1000#32))) 13) (block 8 3 0 [])) =
      some [.error .bufferTooSmall] := by decide +kernel
/-- V30. -/
theorem test_rxGetValues : answers (exec (.rxGetValues 0x4A#8 (f30.drop 3)) (block 8 3 0 [])) =
    some [.decoded 79 ⟨.getValues, f30Values⟩] := by decide +kernel
/-- V35: bits 15, 17, 21, and bit 31, which reads nothing. -/
theorem test_rxGetValuesSelective :
    answers (exec (.rxGetValuesSelective 0x08#8 (bs [0x80, 0x22, 0x80, 0x00, 0x07, 0x2A, 0x01, 0x82, 0x87, 0x03]))
      (block 8 3 0 [])) =
      some [.decoded 13 ⟨.getValuesSelective, { zeroValues with faultCode := 7, controllerId := 42, status := 1 }⟩] := by
  decide +kernel
/-- V70. -/
theorem test_txGetValues : answers (exec (.txGetValues 6) (block 8 3 0 [])) =
    some [.frame (bs [0x02, 0x01, 0x04, 0x40, 0x84, 0x03])] := by decide +kernel
/-- V72. -/
theorem test_txSetCurrent : answers (exec (.txSetCurrent (s2u32 (-1234)) 10) (block 8 3 0 [])) =
    some [.frame (bs [0x02, 0x05, 0x06, 0xFF, 0xFF, 0xFB, 0x2E, 0x43, 0xD2, 0x03])] := by decide +kernel
/-- V76. -/
theorem test_txSetRpm : answers (exec (.txSetRpm (s2u32 (-2147483648)) 10) (block 8 3 0 [])) =
    some [.frame (bs [0x02, 0x05, 0x08, 0x80, 0x00, 0x00, 0x00, 0xDF, 0x15, 0x03])] := by decide +kernel
/-- V78. -/
theorem test_txSetHandbrake : answers (exec (.txSetHandbrake 2500#32 10) (block 8 3 0 [])) =
    some [.frame (bs [0x02, 0x05, 0x0A, 0x00, 0x00, 0x09, 0xC4, 0x65, 0xFE, 0x03])] := by decide +kernel
/-- V81. -/
theorem test_txForwardCan : answers (exec (.txForwardCan 0xFF#8 (.setCurrent 0xFFFFFFFF#32) 12) (block 8 3 0 [])) =
    some [.frame (bs [0x02, 0x07, 0x22, 0xFF, 0x06, 0xFF, 0xFF, 0xFF, 0xFF, 0x0E, 0xE0, 0x03])] := by decide +kernel
/-- V83. -/
theorem test_txGetValuesSelective : answers (exec (.txGetValuesSelective 0x80000001#32 10) (block 8 3 0 [])) =
    some [.frame (bs [0x02, 0x05, 0x32, 0x80, 0x00, 0x00, 0x01, 0x85, 0x74, 0x03])] := by decide +kernel

/-- The codes of R200. -/
theorem test_response_codes :
    [.done, .error .incompleteData, .error (.checksumMismatch 0#16 1#16), .error (.unknownPacket 6#8), .error .invalidFrame,
      .error .bufferTooSmall].map responseCode = [0, 1, 2, 3, 4, 5] := rfl

/-! ## The host's sequences -/

/-- V13: the pseudo-operation CRC.OF. -/
theorem test_crcOf : (answers (execAll (crcOf (bs [0xDE, 0x04, 0x00])) (block 8 3 0 []))).map List.getLast? =
    some (some (.checksum 0xB251#16)) := by decide +kernel
/-- R88: SB.FEEDALL feeds what was not copied again. -/
theorem test_feedAll : answers (feedAll (bs [1, 2, 3, 4, 5, 6]) (block 4 3 0 [])) = some [.copied 4, .copied 2] := by
  decide +kernel
/-- V100 in small: SB.DRAIN delivers two replies and stops at the first None. -/
theorem test_drain : answers (drain (block 32 3 2 (f32 ++ g ++ [0x02#8]))) =
    some [.pulled (some ⟨.getValuesSelective, zeroValues⟩), .pulled (some gReply), .pulled none] := by decide +kernel

/-! ## Witnesses -/

/-- Unread bytes in the middle of BUF with a stale byte before them. -/
theorem witness_inv : (block 16 3 10 (g.take 2)).Inv := by decide +kernel
/-- A full buffer, and an empty one whose cursors stand at its end. -/
theorem witness_inv_full : (block 8 3 0 (g.take 8)).Inv ∧ (block 16 3 16 []).Inv := by decide +kernel

theorem witness_EveryStepKeepsInvariant :
    (asked (block 16 3 10 (g.take 2)) .request (0x20#8 :: g.drop 2)).Inv ∧
      ∃ t, step (asked (block 16 3 10 (g.take 2)) .request (0x20#8 :: g.drop 2)) = .next t :=
  ⟨by decide +kernel, _, rfl⟩
theorem witness_StepRunsDecodedInstruction :
    (asked (block 16 3 0 g) .request [0x21#8]).inputs = .message .request [0x21#8] :: [] ∧
      decode .request [0x21#8] = .ok .sbPull ∧ Instr.sbPull.wellFormed = true := ⟨rfl, rfl, rfl⟩
theorem witness_IdleStepChangesNothing : (block 16 3 0 g).inputs = [] := rfl
theorem witness_ResetInputActsAtOnce : ({ block 16 3 0 g with inputs := [.reset] }).inputs = Input.reset :: [] := rfl
theorem witness_UnassignedNumberIsRefused :
    (asked (block 16 3 0 g) .request [0x03#8, 0x07#8]).inputs = .message .request (0x03#8 :: [0x07#8]) :: [] ∧
      0x03#8 ∉ [0x00#8, 0x01#8, 0x02#8, 0x10#8, 0x20#8, 0x21#8, 0x30#8] := ⟨rfl, by decide⟩
theorem witness_OneResponsePerOperation : ∃ t, exec .sbPull (block 16 3 0 g) = .next t := ⟨_, rfl⟩
theorem witness_AdmittedOperationsComplete :
    (block 16 3 0 g).Inv ∧ admits (block 16 3 0 g).cfg (.fbEnc (nested 3) 12) = true := by decide +kernel
theorem witness_ErrorResponsesChangeNothing :
    ∃ t, exec (.fpDec []) (block 16 3 0 g) = .next t ∧ t.responses = (block 16 3 0 g).responses ++ [.error .incompleteData] :=
  ⟨_, rfl, rfl⟩
theorem witness_PureOperationsOnlyRespond :
    Instr.fpDec g ≠ .crcClr ∧ (∀ b, Instr.fpDec g ≠ .crcUpd b) ∧ (∀ d, Instr.fpDec g ≠ .sbFeed d) ∧ Instr.fpDec g ≠ .sbPull ∧
      ∃ t, exec (.fpDec g) (block 16 3 0 []) = .next t := ⟨by simp, by simp, by simp, by simp, _, rfl⟩
/-- The same unread bytes at two places, with different bytes around them. -/
theorem witness_ResponsesDependOnUnreadBytesOnly :
    (block 16 3 10 (g.take 2)).Inv ∧ (block 16 3 3 (g.take 2)).Inv ∧
      (block 16 3 3 (g.take 2)).cfg = (block 16 3 10 (g.take 2)).cfg ∧
      (block 16 3 3 (g.take 2)).crcAcc = (block 16 3 10 (g.take 2)).crcAcc ∧
      unread (block 16 3 3 (g.take 2)) = unread (block 16 3 10 (g.take 2)) ∧
      (block 16 3 3 (g.take 2)).responses = (block 16 3 10 (g.take 2)).responses ∧
      (after (execAll [.sbFeed (g.drop 2), .sbPull] (block 16 3 10 (g.take 2)))).isSome = true ∧
      (block 16 3 3 (g.take 2)).buf ≠ (block 16 3 10 (g.take 2)).buf := by decide +kernel
theorem witness_DecodeOfEncodeIsIdentity : (Instr.fbEnc (nested 125) 256).wellFormed = true := by
  decide +kernel
theorem witness_DecodedInstructionsAreWellFormed : decode .request (0x30#8 :: encodeCmd (nested 125)) =
    .ok (.fbEnc (nested 125) 0) := by decide +kernel
theorem witness_CrcIsLinear : (bs [0x12, 0x34, 0x56]).length = (bs [0xAB, 0xCD, 0xEF]).length := rfl
theorem witness_AccumulatorHoldsChecksumOfUpdates :
    (block 16 3 0 g).Inv ∧
      (∀ i ∈ [Instr.crcUpd 0xDE#8, .sbPull, .crcUpd 0x04#8], i ≠ .crcClr ∧ admits (block 16 3 0 g).cfg i = true) ∧
      (block 16 3 0 g).crcAcc = 0x0000#16 := by decide +kernel
theorem witness_OnlyCrcOperationsWriteAccumulator :
    Instr.sbPull ≠ .crcClr ∧ (∀ b, Instr.sbPull ≠ .crcUpd b) ∧ ∃ t, exec .sbPull (block 16 3 0 g) = .next t :=
  ⟨by simp, by simp, _, rfl⟩
theorem witness_StartByteIsCheckedFirst : 0x05#8 ≠ 0x02#8 ∧ parse g = .ok (12, gReply) := by decide +kernel
theorem witness_CommandIdSelectsRoutine : 6#8 ≠ 4#8 ∧ 6#8 ≠ 50#8 := by decide
theorem witness_GetValuesReplyIsDelivered : fieldsInRange f30Values := by
  intro f; cases f <;> simp [inRange, fieldType, getField, f30Values, zeroValues]
/-- The statement's frame is V30. -/
theorem witness_GetValuesReplyIsDelivered_frame :
    wireFrame (getValuesPayload f30Values) = f30 ∧ parse (f30 ++ [0xAA#8]) = .ok (79, ⟨.getValues, f30Values⟩) := by
  decide +kernel
theorem witness_SelectiveReplyIsDelivered : fieldsInRange gValues := by
  intro f; cases f <;> simp [inRange, fieldType, getField, gValues, zeroValues]
/-- The statement's frame is V33, and the record that it delivers is V33's. -/
theorem witness_SelectiveReplyIsDelivered_frame :
    wireFrame (selectivePayload 0x00000100#32 gValues) = g ∧ carried 0x00000100#32 gValues = gValues := by decide +kernel
theorem witness_DeliveredFieldsStandAtTheirOffsets :
    (parse f30 = .ok (79, ⟨.getValues, f30Values⟩) ∧ (⟨.getValues, f30Values⟩ : Reply).kind = .getValues) ∧
      (parse g = .ok (12, gReply) ∧ gReply.kind = .getValuesSelective ∧ (maskOf g).getLsbD (fieldBit .voltageIn) = true ∧
        (maskOf g).getLsbD (fieldBit .status) = false) := by decide +kernel
theorem witness_DeliveredFieldsAreInRange : parse g = .ok (12, gReply) := by decide +kernel
theorem witness_SuccessMeansWholeFrame : parse f32 = .ok (10, ⟨.getValuesSelective, zeroValues⟩) := by decide +kernel
theorem witness_LaterBytesDoNotChangeVerdict :
    parse g ≠ .error .incompleteData ∧ parse [0x05#8] ≠ .error .incompleteData := by decide +kernel
theorem witness_ProperPrefixIsIncomplete : parse g = .ok (g.length, gReply) ∧ 11 < g.length := by decide +kernel
theorem witness_MutatedFrameIsRejected :
    parse g = .ok (g.length, gReply) ∧ 0x03#8 ≠ 0x02#8 ∧ 0x08#8 ≠ g.getD 1 0#8 ∧ 0x04#8 ≠ 0x03#8 ∧
      be2 0x72#8 0x9A#8 ≠ crc16 ((g.drop 2).take (g.length - 5)) := by decide +kernel
/-- A sufficient tail, exactly sufficient; an insufficient one with compaction; and one with discard. -/
theorem witness_SbFeedStoresAndMovesCursors :
    ((block 16 3 10 (g.take 2)).Inv ∧ unread (block 16 3 10 (g.take 2)) = some (g.take 2)) ∧
      (g.take 4).length ≤ (block 16 3 10 (g.take 2)).cfg.cap - (block 16 3 10 (g.take 2)).wr ∧
      (block 16 3 10 (g.take 2)).cfg.cap - (block 16 3 10 (g.take 2)).wr < (g.take 5).length ∧
      ((block 8 3 0 (g.take 8)).Inv ∧ unread (block 8 3 0 (g.take 8)) = some (g.take 8)) := by decide +kernel
theorem witness_SbFeedWritesOnlyItsRegion :
    (after (exec (.sbFeed (g.take 4)) (block 16 3 10 (g.take 2)))).isSome = true ∧
      (after (exec (.sbFeed (g.take 5)) (block 16 3 10 (g.take 2)))).isSome = true ∧
      (after (exec (.sbFeed [0x09#8]) (block 8 3 0 (g.take 8)))).isSome = true := by decide +kernel
theorem witness_SbFeedAlwaysProgresses : (block 8 3 0 (g.take 8)).Inv ∧ g ≠ [] := by decide +kernel
theorem witness_FullBufferIsDiscarded :
    (block 8 3 0 (g.take 8)).Inv ∧ (block 8 3 0 (g.take 8)).wr - (block 8 3 0 (g.take 8)).rd = (block 8 3 0 (g.take 8)).cfg.cap ∧
      g ≠ [] := by decide +kernel
theorem witness_EmptyFeedChangesNothing : (block 8 3 0 (g.take 8)).wr ≤ (block 8 3 0 (g.take 8)).cfg.cap := by decide
theorem witness_SbPullSkipsToFirstFrame :
    (block 16 3 1 (0x55#8 :: g)).Inv ∧ unread (block 16 3 1 (0x55#8 :: g)) = some (0x55#8 :: g) := by decide +kernel
theorem witness_SbPullOnlyRaisesReadCursor : ∃ t, exec .sbPull (block 16 3 1 (0x55#8 :: g)) = .next t := ⟨_, rfl⟩
theorem witness_StreamBufferRefinesUnreadSequence : (block 16 3 1 (0x55#8 :: g)).Inv := by decide +kernel
/-- Junk without 0x02 for the second disjunct; a phantom start that fails for good (an unknown id) for the first. -/
theorem witness_PullResynchronizesOnNextFrame :
    ((block 32 3 2 (bs [0xAA, 0x55] ++ g ++ bs [0x02])).Inv ∧
      unread (block 32 3 2 (bs [0xAA, 0x55] ++ g ++ bs [0x02])) = some (bs [0xAA, 0x55] ++ g ++ bs [0x02]) ∧
      parse g = .ok (g.length, gReply) ∧ 0x02#8 ∉ bs [0xAA, 0x55]) ∧
    ((block 32 3 2 (bs [0x02] ++ g ++ [])).Inv ∧
      unread (block 32 3 2 (bs [0x02] ++ g ++ [])) = some (bs [0x02] ++ g ++ []) ∧
      parse ((bs [0x02] ++ g ++ []).drop 0) = .error (.unknownPacket 0x07#8)) := by decide +kernel
theorem witness_ChunkedFrameYieldsExactlyOneReply :
    (block 12 3 12 []).Inv ∧ unread (block 12 3 12 []) = some [] ∧ parse g = .ok (g.length, gReply) ∧
      g.length ≤ (block 12 3 12 []).cfg.cap ∧ [g.take 3, [], (g.drop 3).take 5].flatten ++ g.drop 8 = g ∧ g.drop 8 ≠ [] := by
  decide +kernel
/-- A block that has met a phantom start with `len` and `id` and then `rest`, all unread. -/
def phantom (len id : Byte) (rest : List Byte) : State := block 128 3 0 (0x02#8 :: len :: id :: rest)
/-- Whether a `witness_` of PhantomStartStallsPull applies: the invariant, and the unread bytes. -/
abbrev isPhantom (len id : Byte) (rest : List Byte) : Prop :=
  (phantom len id rest).Inv ∧ unread (phantom len id rest) = some (0x02#8 :: len :: id :: rest)
/-- Id 4: the longest stalled rest and the first that is not, for another LENGTH and for LENGTH 74. -/
theorem witness_PhantomStartStallsPull_id4 :
    (isPhantom 1#8 4#8 (List.replicate 72 0#8) ∧ 3 + (List.replicate 72 0#8).length < 76) ∧
      (isPhantom 1#8 4#8 (List.replicate 73 0#8) ∧ 76 ≤ 3 + (List.replicate 73 0#8).length) ∧
      (isPhantom 74#8 4#8 (List.replicate 75 0#8) ∧ 3 + (List.replicate 75 0#8).length < 79) ∧
      (isPhantom 74#8 4#8 (List.replicate 76 0#8) ∧ 79 ≤ 3 + (List.replicate 76 0#8).length) := by decide +kernel
/-- Id 50: a mask cut short; mask bit 8 selects n = 2 bytes. -/
theorem witness_PhantomStartStallsPull_mask :
    (isPhantom 9#8 50#8 (bs [0, 0, 1]) ∧ (bs [0, 0, 1]).length < 4) ∧ 2 = fieldsSize (selectedFields 0x00000100#32) ∧
      (9#8).toNat ≠ 5 + 2 ∧ (7#8).toNat = 5 + 2 := by decide +kernel
/-- Id 50 with another LENGTH: 8 bytes stall, 9 do not. -/
theorem witness_PhantomStartStallsPull_id50 :
    (isPhantom 9#8 50#8 (bytesBe4 0x00000100#32 ++ bs [1]) ∧ 7 + (bs [1]).length < 7 + 2) ∧
      (isPhantom 9#8 50#8 (bytesBe4 0x00000100#32 ++ bs [1, 2]) ∧ 7 + 2 ≤ 7 + (bs [1, 2]).length) := by decide +kernel
/-- Id 50 with LENGTH 5 + n: 11 bytes stall, 12 do not. -/
theorem witness_PhantomStartStallsPull_id50_length :
    (isPhantom 7#8 50#8 (bytesBe4 0x00000100#32 ++ bs [1, 2, 3, 4]) ∧ 7 + (bs [1, 2, 3, 4]).length < 10 + 2) ∧
      (isPhantom 7#8 50#8 (bytesBe4 0x00000100#32 ++ bs [1, 2, 3, 4, 5]) ∧ 10 + 2 ≤ 7 + (bs [1, 2, 3, 4, 5]).length) := by
  decide +kernel
theorem witness_DrainLeavesNothingDecodable : (block 32 3 2 (f32 ++ g ++ [0x02#8])).Inv := by decide +kernel
/-- Exactly MAXNEST levels. -/
theorem witness_FbEncBuildsWholeFrameOrNothing : (nested 3).depth ≤ (block 8 3 0 []).cfg.maxNest.val := by decide
/-- One level more, for both operations. -/
theorem witness_DeeperDescriptorIsRefused :
    (block 8 3 0 []).cfg.maxNest.val < (nested 4).depth ∧ (block 8 3 0 []).cfg.maxNest.val < (nested 3).depth + 1 := by decide
theorem witness_PayloadLengthFitsLengthByte :
    (nested 125).depth ≤ 125 ∧ (cmdPayload (nested 124 |> .forwardCan 1#8)).length = 251 := by decide +kernel
theorem witness_TxForwardCanFrame : (nested 2).depth + 1 ≤ (block 8 3 0 []).cfg.maxNest.val := by decide
theorem witness_HostScalingLosesLessThanOneStep : 0 < 1000 := by decide

end Sys2Proof.Tests
end

section
/-! PROOFS. Family 41, the frame parser: what FP.DEC answers for each outcome of `parse(W)`, and the verdicts of the first
steps of a parse. -/

namespace Sys2Proof.Machine

/-! ## FP.DEC -/

/-- FP.DEC's arm: the parse of the window becomes the response (R120). -/
theorem exec_fpDec (w : List Byte) (s : State) :
    exec (.fpDec w) s = .next (answer s (decodeResponse (parse w))) := rfl

theorem exec_fpDec_of_ok {w : List Byte} {n : Nat} {r : Reply} (h : parse w = .ok (n, r)) (s : State) :
    exec (.fpDec w) s = .next { s with responses := s.responses ++ [.decoded n r] } := by
  rw [exec_fpDec, h]
  rfl

theorem exec_fpDec_of_error {w : List Byte} {e : Err} (h : parse w = .error e) (s : State) :
    exec (.fpDec w) s = .next { s with responses := s.responses ++ [.error e] } := by
  rw [exec_fpDec, h]
  rfl

/-! ## The first steps of a parse -/

/-- Step 1 without a byte to read (R122). -/
theorem parse_nil : parse [] = .error .incompleteData := rfl

/-- Step 1 at a byte that is not START (R122). -/
theorem parse_cons_of_ne_startMarker {b : Byte} (h : b ≠ startMarker) (rest : List Byte) :
    parse (b :: rest) = .error .invalidFrame := by
  have hlen : (b :: rest).length ≠ 0 := Nat.succ_ne_zero _
  rw [parse_eq, if_neg hlen]
  exact if_pos h

/-- Step 3 at an id that is neither 4 nor 50 (R124). -/
theorem parse_of_unknown_id {id : Byte} (h4 : id ≠ idGetValues) (h50 : id ≠ idGetValuesSelective) (len : Byte)
    (rest : List Byte) : parse (startMarker :: len :: id :: rest) = .error (.unknownPacket id) := by
  have hid : parseById (startMarker :: len :: id :: rest) len id 2 3 = .error (.unknownPacket id) := by
    rw [parseById, if_neg h4, if_neg h50]
  exact hid

/-- A success has read START as its first byte (R122, R129). -/
theorem head?_of_parse_ok {w : List Byte} {n : Nat} {r : Reply} (h : parse w = .ok (n, r)) :
    w.head? = some startMarker := by
  cases w with
  | nil => simp [parse_nil] at h
  | cons b rest =>
    obtain ⟨hstart, -⟩ := parse_ok h
    exact congrArg some hstart

end Sys2Proof.Machine

namespace Sys2Proof.Proofs

open Sys2Proof Sys2Proof.Machine

/-- Settles O26, by the two outcomes of a parse; the example window has the unknown id 222. -/
theorem fpDecAnswersParseAndWritesNothing : Obligations.FpDecAnswersParseAndWritesNothing := by
  refine ⟨fun w s => ?_, parse_ne_bufferTooSmall, fun _ => rfl, parse_of_unknown_id (by decide) (by decide) _ _⟩
  cases hp : parse w with
  | ok x => exact exec_fpDec_of_ok hp s
  | error e => exact exec_fpDec_of_error hp s

/-- Settles O27, by the verdicts of step 1 for an empty window, for a wrong first byte and for a success. -/
theorem startByteIsCheckedFirst : Obligations.StartByteIsCheckedFirst :=
  ⟨exec_fpDec_of_error parse_nil,
    fun _ rest s hb => exec_fpDec_of_error (parse_cons_of_ne_startMarker hb rest) s,
    fun _ _ h => head?_of_parse_ok h⟩

end Sys2Proof.Proofs
end

section
/-! PROOFS. Family 42, the stream buffer: the scan of SB.PULL on the unread bytes alone, and SB.PULL by where that scan
stops. -/

namespace Sys2Proof.Machine

/-! ## Positions at which the parse fails for good -/

/-- IncompleteData and success are the two outcomes at which the scan stops (R166). -/
theorem not_rejected_iff (w : List Byte) :
    ¬ rejected w ↔ parse w = .error .incompleteData ∨ ∃ n reply, parse w = .ok (n, reply) := by
  unfold rejected
  cases parse w with
  | ok x =>
    obtain ⟨n, reply⟩ := x
    simp
  | error e => simp

theorem not_rejected_nil : ¬ rejected [] := (not_rejected_iff []).mpr (.inl parse_nil)

/-- The scan has a place to stop, at the latest the end of the unread bytes. -/
theorem exists_first_not_rejected (u : List Byte) :
    ∃ j, j ≤ u.length ∧ (∀ i, i < j → rejected (u.drop i)) ∧ ¬ rejected (u.drop j) := by
  classical
  have hend : ¬ rejected (u.drop u.length) := by
    rw [List.drop_length]
    exact not_rejected_nil
  have hex : ∃ j, ¬ rejected (u.drop j) := ⟨u.length, hend⟩
  exact ⟨Nat.find hex, Nat.find_le hend, fun i hi => not_not.mp (Nat.find_min hex hi), Nat.find_spec hex⟩

/-- A frame has bytes, and all of them stand in the window (R129). -/
theorem consumed_bounds {w : List Byte} {n : Nat} {r : Reply} (h : parse w = .ok (n, r)) : 0 < n ∧ n ≤ w.length := by
  obtain ⟨-, -, hn, hle, -⟩ := parse_ok h
  omega

/-! ## The abstract pull, one equation per outcome of an attempt (R166) -/

theorem absPull_of_ok {w : List Byte} {n : Nat} {r : Reply} (h : parse w = .ok (n, r)) :
    absPull w = (w.drop n, some r) := by
  cases w with
  | nil => simp [parse_nil] at h
  | cons b rest => simp only [absPull, h]

theorem absPull_of_incompleteData {w : List Byte} (h : parse w = .error .incompleteData) : absPull w = (w, none) := by
  cases w with
  | nil => rfl
  | cons b rest => simp only [absPull, h]

theorem absPull_of_rejected {w : List Byte} (h : rejected w) : absPull w = absPull (w.drop 1) := by
  cases w with
  | nil => exact absurd h not_rejected_nil
  | cons b rest =>
    obtain ⟨e, he, hne⟩ := h
    rw [List.drop_one, List.tail_cons, absPull, he]
    cases e with
    | incompleteData => exact absurd rfl hne
    | checksumMismatch _ _ => rfl
    | unknownPacket _ => rfl
    | invalidFrame => rfl
    | bufferTooSmall => rfl

/-- Rejected positions fall away one by one. -/
theorem absPull_eq_absPull_drop {u : List Byte} {j : Nat} (h : ∀ i, i < j → rejected (u.drop i)) :
    absPull u = absPull (u.drop j) := by
  induction j with
  | zero => rfl
  | succ j ih =>
    have hj : absPull (u.drop j) = absPull ((u.drop j).drop 1) := absPull_of_rejected (h j (Nat.lt_succ_self j))
    rw [ih fun i hi => h i (Nat.lt_succ_of_lt hi), hj, List.drop_drop]

/-! ## SB.PULL -/

/-- SB.PULL's arm: the pull on the buffer, then its answer (R165). -/
theorem exec_sbPull_of_pull {s t : State} {r : Option Reply} (h : pull s = .ok (t, r)) :
    exec .sbPull s = .next { t with responses := t.responses ++ [.pulled r] } := by
  have harm : exec .sbPull s = execSbPull s := rfl
  rw [harm, execSbPull, h]
  rfl

/-- SB.PULL that skips `j` rejected bytes and whose attempt at the next position removes `n` bytes and answers `r`. -/
theorem exec_sbPull_of_skip {u : List Byte} {s : State} {j n : Nat} {r : Option Reply} (hinv : s.Inv)
    (hu : unread s = some u) (hskip : ∀ i, i < j → rejected (u.drop i))
    (hstop : absPull (u.drop j) = ((u.drop j).drop n, r)) (hlen : j + n ≤ u.length) :
    exec .sbPull s = .next { s with rd := s.rd + j + n, responses := s.responses ++ [.pulled r] } := by
  have habs : absPull u = (u.drop (j + n), r) := by
    rw [absPull_eq_absPull_drop hskip, hstop, List.drop_drop]
  have hrd : s.rd + (u.length - (u.drop (j + n)).length) = s.rd + j + n := by
    rw [List.length_drop]
    omega
  have hpull : pull s = .ok ({ s with rd := s.rd + j + n }, r) := by
    rw [pull_eq hinv hu, habs, hrd]
  exact exec_sbPull_of_pull hpull

end Sys2Proof.Machine

namespace Sys2Proof.Proofs

open Sys2Proof Sys2Proof.Machine

/-- Settles O43: the scan stops at the first position that is not rejected, and there the parse is IncompleteData (also past
the last byte) or a success. -/
theorem sbPullSkipsToFirstFrame : Obligations.SbPullSkipsToFirstFrame := by
  intro u s hinv hu
  have hlen : u.length = s.wr - s.rd := readCells_length hu
  have ⟨_, hcur, _⟩ := hinv
  obtain ⟨j, hj, hskip, hstop⟩ := exists_first_not_rejected u
  rcases (not_rejected_iff _).mp hstop with hp | ⟨n, reply, hp⟩
  · refine ⟨j, 0, none, hj, hskip, exec_sbPull_of_skip hinv hu hskip (absPull_of_incompleteData hp) hj, by omega, ?_⟩
    rcases hj.eq_or_lt with hend | hlt
    · exact .inl ⟨hend, rfl, rfl⟩
    · exact .inr (.inl ⟨hlt, hp, rfl, rfl⟩)
  · obtain ⟨hpos, hle⟩ := consumed_bounds hp
    rw [List.length_drop] at hle
    have hjn : j + n ≤ u.length := by omega
    exact ⟨j, n, some reply, hj, hskip, exec_sbPull_of_skip hinv hu hskip (absPull_of_ok hp) hjn, by omega,
      .inr (.inr ⟨by omega, reply, hp, rfl⟩)⟩

end Sys2Proof.Proofs
end

section
/-! PROOFS. Family 43, the frame builder: a build as the operation's one response, a command frame as FB.ENC of its command,
and the frame of a command that is an id and one word. -/

namespace Sys2Proof.Machine

/-! ## A build as a response -/

/-- A build answers the whole frame or BufferTooSmall, and writes no state (R180, R188). -/
theorem answer_buildResponse {packer : Dest → Except Err Dest} {p : List Byte} (h : Appends packer p) (dcap : Nat)
    (s : State) : answer s (buildResponse packer dcap) = { s with responses := s.responses ++
      [if dcap < p.length + 5 then .error .bufferTooSmall else .frame (wireFrame p)] } := by
  rw [buildResponse, buildFrame_eq h]
  split <;> rfl

/-- FB.ENC of a descriptor that the port admits builds its payload (R180). -/
theorem exec_fbEnc_of_depth_le {cmd : Cmd} {s : State} (h : cmd.depth ≤ s.cfg.maxNest.val) (dcap : Nat) :
    exec (.fbEnc cmd dcap) s = .next (answer s (buildResponse (pack cmd) dcap)) :=
  if_pos ((nestsWithin_iff cmd _).mpr h)

/-! ## The command frames without nesting -/

/-- A command frame whose arm builds a command without ForwardCan levels: every block admits it, so it is FB.ENC of that
command. -/
theorem exec_of_builds {i : Instr} {cmd : Cmd} {dcap : Nat} {s : State}
    (harm : exec i s = .next (answer s (buildResponse (pack cmd) dcap))) (hleaf : cmd.depth = 0) :
    exec i s = .next { s with responses := s.responses ++
      [if dcap < (cmdPayload cmd).length + 5 then .error .bufferTooSmall else .frame (wireFrame (cmdPayload cmd))] } ∧
    exec (.fbEnc cmd dcap) s = exec i s := by
  have hadm : cmd.depth ≤ s.cfg.maxNest.val := hleaf ▸ Nat.zero_le _
  exact ⟨by rw [harm, answer_buildResponse (appends_pack cmd)], by rw [harm, exec_fbEnc_of_depth_le hadm]⟩

/-- The frame of an id and one 32-bit operand, formats C1 and CM: L = 5. -/
theorem wireFrame_id_word (id : Byte) (v : Word) : wireFrame (id :: bytesBe4 v) =
    [0x02#8, 0x05#8, id] ++ bytesBe4 v ++ bytesBe2 (crc16 (id :: bytesBe4 v)) ++ [0x03#8] := by
  simp [wireFrame]

/-- A command frame of an id and one 32-bit operand has 10 bytes. -/
theorem exec_of_builds_word {i : Instr} {cmd : Cmd} {id : Byte} {v : Word} {dcap : Nat} {s : State}
    (harm : exec i s = .next (answer s (buildResponse (pack cmd) dcap))) (hleaf : cmd.depth = 0)
    (hpayload : cmdPayload cmd = id :: bytesBe4 v) :
    exec i s = .next { s with responses := s.responses ++
      [if dcap < 10 then .error .bufferTooSmall
       else .frame ([0x02#8, 0x05#8, id] ++ bytesBe4 v ++ bytesBe2 (crc16 (id :: bytesBe4 v)) ++ [0x03#8])] } ∧
    exec (.fbEnc cmd dcap) s = exec i s := by
  have h := exec_of_builds harm hleaf
  rwa [hpayload, wireFrame_id_word, List.length_cons, length_bytesBe4] at h

/-! ## The host's operand -/

/-- A product that is an integer is truncated to itself (R79). -/
theorem hostRaw_of_mul_eq {x : ℚ} {scale : Nat} {n : ℤ} (h : x * scale = n) : hostRaw x scale = n := by
  rw [hostRaw, truncTowardZero, h, Int.floor_intCast, Int.ceil_intCast, ite_self]

end Sys2Proof.Machine

namespace Sys2Proof.Proofs

open Sys2Proof Sys2Proof.Machine

/-- Settles O53: the payload is the id 4 alone, so the frame of a build is a constant. -/
theorem txGetValuesFrame : Obligations.TxGetValuesFrame := by
  intro dcap s
  have hframe : wireFrame (cmdPayload .getValues) = [0x02#8, 0x01#8, 0x04#8, 0x40#8, 0x84#8, 0x03#8] := by decide +kernel
  have h := exec_of_builds (i := .txGetValues dcap) (cmd := .getValues) (dcap := dcap) (s := s) rfl rfl
  rwa [hframe] at h

/-- Settles O54, by the frame of the id 6 and one word. -/
theorem txSetCurrentFrame : Obligations.TxSetCurrentFrame :=
  ⟨fun _ _ _ => exec_of_builds_word rfl rfl rfl, hostRaw_of_mul_eq (by norm_num), by decide, by decide +kernel⟩

/-- Settles O55, by the frame of the id 8 and one word. -/
theorem txSetRpmFrame : Obligations.TxSetRpmFrame :=
  ⟨fun _ _ _ => exec_of_builds_word rfl rfl rfl, by decide, by decide, by decide +kernel⟩

/-- Settles O56, by the frame of the id 10 and one word. -/
theorem txSetHandbrakeFrame : Obligations.TxSetHandbrakeFrame :=
  ⟨fun _ _ _ => exec_of_builds_word rfl rfl rfl, hostRaw_of_mul_eq (by norm_num), by decide +kernel⟩

/-- Settles O58, by the frame of the id 50 and one word: the mask is written like any other operand. -/
theorem txGetValuesSelectiveFrame : Obligations.TxGetValuesSelectiveFrame :=
  ⟨fun _ _ _ => exec_of_builds_word rfl rfl rfl, by decide +kernel, by decide +kernel⟩

end Sys2Proof.Proofs
end

section
/-! PROOFS. Family 60, the exceptions: an operation whose response is an error has only appended it. -/

namespace Sys2Proof.Machine

/-! ## What an operation that answers has done -/

/-- Giving a value or an error is giving one response, from the state as it stands. -/
theorem exists_answer_eq_respond (s : State) (x : Except Err Response) : ∃ r, answer s x = respond s r := by
  cases x with
  | ok r => exact ⟨r, rfl⟩
  | error e => exact ⟨.error e, rfl⟩

/-- An operation that ends in an answer has only given a response. -/
theorem eq_respond_of_next_answer {s t : State} {x : Except Err Response}
    (h : (.next (answer s x) : Host.Outcome State Fault Refusal) = .next t) : ∃ r, t = respond s r := by
  cases h
  exact exists_answer_eq_respond s x

/-- FB.ENC that is not refused has only given a response (R180, R188). -/
theorem eq_respond_of_exec_fbEnc {cmd : Cmd} {dcap : Nat} {s t : State} (h : exec (.fbEnc cmd dcap) s = .next t) :
    ∃ r, t = respond s r := by
  change (if nestsWithin cmd s.cfg.maxNest.val then _ else _) = _ at h
  split at h
  · exact eq_respond_of_next_answer h
  · cases h

/-- Everything an operation that answers has done: it gave a response from the state as it was, or it gave one that is no
error. The second holds of the operations that write state, which have no error response (R106, R107, R169, R209). -/
theorem exec_next_cases {i : Instr} {s t : State} (h : exec i s = .next t) :
    (∃ r, t = respond s r) ∨ ∃ s' r, t = respond s' r ∧ ∀ e, r ≠ .error e := by
  cases i with
  | crcClr | crcUpd _ => exact .inr ⟨_, .done, (Host.Outcome.next.inj h).symm, nofun⟩
  | crcRd => exact .inl ⟨_, (Host.Outcome.next.inj h).symm⟩
  | sbFeed data =>
    obtain ⟨s', k, -, ht⟩ := execSbFeed_next h
    exact .inr ⟨s', .copied k, ht, nofun⟩
  | sbPull =>
    obtain ⟨s', reply, -, ht⟩ := execSbPull_next h
    exact .inr ⟨s', .pulled reply, ht, nofun⟩
  | fbEnc cmd dcap => exact .inl (eq_respond_of_exec_fbEnc h)
  | txForwardCan target inner dcap =>
    have hfbEnc : exec (.fbEnc (.forwardCan target inner) dcap) s = .next t := h
    exact .inl (eq_respond_of_exec_fbEnc hfbEnc)
  | fpDec _ | rxGetValues _ _ | rxGetValuesSelective _ _ | txGetValues _ | txSetCurrent _ _ | txSetRpm _ _
  | txSetHandbrake _ _ | txGetValuesSelective _ _ => exact .inl (eq_respond_of_next_answer h)

/-- The response given is the last one on record. -/
theorem response_eq_of_respond_responses {s : State} {r r' : Response} {earlier : List Response}
    (h : (respond s r).responses = earlier ++ [r']) : r = r' := by
  rw [respond_responses] at h
  exact (List.append_singleton_inj.mp h).2

end Sys2Proof.Machine

namespace Sys2Proof.Proofs

open Sys2Proof Sys2Proof.Machine

/-- Settles O10: the last response is the operation's own, and an operation that answers an error gave it from the state as it
was. -/
theorem errorResponsesChangeNothing : Obligations.ErrorResponsesChangeNothing := by
  intro i s t e hexec hresp
  rcases exec_next_cases hexec with ⟨r, rfl⟩ | ⟨s', r, rfl, hne⟩
  · obtain rfl := response_eq_of_respond_responses hresp
    rfl
  · exact absurd (response_eq_of_respond_responses hresp) (hne e)

end Sys2Proof.Proofs
end

section
/-! PROOFS. The machine as a whole: what an operation that answers has written, and the block as a function of CRCACC and the
unread bytes, which every operation refines. -/

namespace Sys2Proof.Machine

/-! ## What an operation that answers has written (R33) -/

/-- What SB.FEED on the buffer leaves alone whenever it answers. -/
theorem feed_frame {data : List Byte} {s t : State} {k : Nat} (h : feed data s = .ok (t, k)) :
    t.crcAcc = s.crcAcc ∧ t.cfg = s.cfg ∧ t.inputs = s.inputs ∧ t.responses = s.responses := by
  obtain ⟨s', -, rfl, ⟨-, rfl⟩ | ⟨u, -, -, ⟨-, rfl⟩ | ⟨-, rfl⟩⟩⟩ := feed_cases h
  all_goals exact ⟨rfl, rfl, rfl, rfl⟩

/-- SB.PULL on the buffer raises RD, and leaves the rest alone, whenever it answers (R167). -/
theorem pull_frame {s t : State} {r : Option Reply} (h : pull s = .ok (t, r)) : ∃ n, t = { s with rd := s.rd + n } := by
  obtain ⟨hle, ht⟩ := pullLoop_frame h
  obtain ⟨n, hn⟩ := Nat.exists_eq_add_of_le hle
  exact ⟨n, hn ▸ ht⟩

/-- Everything an operation that answers has written: the four operations that write state, and the rest, which give a
response only. -/
theorem exec_next_writes {i : Instr} {s t : State} (h : exec i s = .next t) :
    (i = .crcClr ∧ t = respond { s with crcAcc := 0x0000#16 } .done) ∨
    (∃ b, i = .crcUpd b ∧ t = respond { s with crcAcc := crcStep s.crcAcc b } .done) ∨
    (∃ data s' k, i = .sbFeed data ∧ feed data s = .ok (s', k) ∧ t = respond s' (.copied k)) ∨
    (∃ s' r, i = .sbPull ∧ pull s = .ok (s', r) ∧ t = respond s' (.pulled r)) ∨
    ∃ r, t = respond s r := by
  cases i with
  | crcClr => exact .inl ⟨rfl, (Host.Outcome.next.inj h).symm⟩
  | crcUpd b => exact .inr (.inl ⟨b, rfl, (Host.Outcome.next.inj h).symm⟩)
  | sbFeed data =>
    obtain ⟨s', k, hf, ht⟩ := execSbFeed_next h
    exact .inr (.inr (.inl ⟨data, s', k, rfl, hf, ht⟩))
  | sbPull =>
    obtain ⟨s', r, hp, ht⟩ := execSbPull_next h
    exact .inr (.inr (.inr (.inl ⟨s', r, rfl, hp, ht⟩)))
  | crcRd => exact .inr (.inr (.inr (.inr ⟨_, (Host.Outcome.next.inj h).symm⟩)))
  | fbEnc cmd dcap => exact .inr (.inr (.inr (.inr (eq_respond_of_exec_fbEnc h))))
  | txForwardCan target inner dcap =>
    have hfbEnc : exec (.fbEnc (.forwardCan target inner) dcap) s = .next t := h
    exact .inr (.inr (.inr (.inr (eq_respond_of_exec_fbEnc hfbEnc))))
  | fpDec _ | rxGetValues _ _ | rxGetValuesSelective _ _ | txGetValues _ | txSetCurrent _ _ | txSetRpm _ _
  | txSetHandbrake _ _ | txGetValuesSelective _ _ => exact .inr (.inr (.inr (.inr (eq_respond_of_next_answer h))))

/-- SB.FEED's arm: the feed on the buffer, then the count of its copy (R160). -/
theorem exec_sbFeed_of_feed {data : List Byte} {s t : State} {k : Nat} (h : feed data s = .ok (t, k)) :
    exec (.sbFeed data) s = .next (respond t (.copied k)) := by
  have harm : exec (.sbFeed data) s = execSbFeed data s := rfl
  rw [harm, execSbFeed, h]

/-! ## The block seen through its port -/

/-- The block as the host can know it: under the invariant, with parameters `c`, it holds CRCACC = `acc` and the unread bytes
`u` (R30, R170). -/
structure Represents (s : State) (c : Config) (acc : Half) (u : List Byte) : Prop where
  inv : s.Inv
  cfg : s.cfg = c
  crcAcc : s.crcAcc = acc
  unread : unread s = some u

/-- Every state that meets the invariant represents something. -/
theorem exists_represents {s : State} (h : s.Inv) : ∃ u, Represents s s.cfg s.crcAcc u := by
  obtain ⟨u, hu, -⟩ := unread_of_inv h
  exact ⟨u, h, rfl, rfl, hu⟩

theorem Represents.length_unread {s : State} {c : Config} {acc : Half} {u : List Byte} (h : Represents s c acc u) :
    u.length = s.wr - s.rd := readCells_length h.unread

theorem Represents.length_le_cap {s : State} {c : Config} {acc : Half} {u : List Byte} (h : Represents s c acc u) :
    u.length ≤ c.cap := by
  obtain ⟨-, -, hwr, -⟩ := h.inv
  rw [h.length_unread, ← h.cfg]
  omega

/-- The record of responses is no part of it. -/
theorem Represents.respond {s : State} {c : Config} {acc : Half} {u : List Byte} (h : Represents s c acc u) (r : Response) :
    Represents (respond s r) c acc u := ⟨h.inv, h.cfg, h.crcAcc, h.unread⟩

/-- Neither are the host's inputs. -/
theorem Represents.withInputs {s : State} {c : Config} {acc : Half} {u : List Byte} (h : Represents s c acc u)
    (inputs : List Input) : Represents { s with inputs := inputs } c acc u := ⟨h.inv, h.cfg, h.crcAcc, h.unread⟩

theorem Represents.withCrcAcc {s : State} {c : Config} {acc : Half} {u : List Byte} (h : Represents s c acc u) (acc' : Half) :
    Represents { s with crcAcc := acc' } c acc' u := ⟨h.inv, h.cfg, rfl, h.unread⟩

/-! ## The buffer operations on the unread bytes -/

/-- A write to BUF keeps the invariant when the unread region that is left reads as bytes. -/
theorem inv_of_writeCells {s : State} (h : s.Inv) {a rd wr : Nat} {v l : List Byte} (hfit : a + v.length ≤ s.cfg.cap)
    (hrd : rd ≤ wr) (hwr : wr ≤ s.cfg.cap) (hl : readCells (writeCells s.buf a v) rd (wr - rd) = some l) :
    ({ s with buf := writeCells s.buf a v, rd := rd, wr := wr } : State).Inv := by
  obtain ⟨hcfg, -, -, hwf, hcap, -⟩ := h
  obtain ⟨hwf', hcap'⟩ := memWrite_wf (memWrite_ok.mpr ⟨hfit, rfl⟩) hwf hcap
  exact ⟨hcfg, hrd, hwr, hwf', hcap', written_of_unread (s := ⟨_, _, rd, wr, s.cfg, s.inputs, s.responses⟩) hl⟩

/-- Compaction moves the unread bytes to 0 (R161). -/
theorem Represents.compacted {s : State} {c : Config} {acc : Half} {u : List Byte} (h : Represents s c acc u) :
    Represents { s with buf := writeCells s.buf 0 u, rd := 0, wr := s.wr - s.rd } c acc u := by
  obtain ⟨-, hrd, hwr, -⟩ := h.inv
  have hread : readCells (writeCells s.buf 0 u) 0 (s.wr - s.rd - 0) = some u := by
    rw [Nat.sub_zero, ← h.length_unread]
    exact readCells_writeCells s.buf 0 u
  have hlen := h.length_unread
  exact ⟨inv_of_writeCells h.inv (by omega) (by omega) (by omega) hread, h.cfg, h.crcAcc, hread⟩

/-- A discard leaves nothing unread (R163). -/
theorem Represents.discarded {s : State} {c : Config} {acc : Half} {u : List Byte} (h : Represents s c acc u) :
    Represents { s with rd := 0, wr := 0 } c acc [] := by
  obtain ⟨hcfg, -, -, hwf, hcap, -⟩ := h.inv
  exact ⟨⟨hcfg, le_rfl, Nat.zero_le _, hwf, hcap, nofun⟩, h.cfg, h.crcAcc, rfl⟩

/-- The copy appends to the unread bytes (R164). -/
theorem Represents.copied {s : State} {c : Config} {acc : Half} {u v : List Byte} (h : Represents s c acc u)
    (hfit : s.wr + v.length ≤ c.cap) :
    Represents { s with buf := writeCells s.buf s.wr v, wr := s.wr + v.length } c acc (u ++ v) := by
  obtain ⟨-, hrd, hwr, -⟩ := h.inv
  rw [← h.cfg] at hfit
  have hold : readCells (writeCells s.buf s.wr v) s.rd (s.wr - s.rd) = some u := by
    rw [readCells_writeCells_outside _ _ _ _ _ (by omega)]
    exact h.unread
  have hnew : readCells (writeCells s.buf s.wr v) (s.rd + (s.wr - s.rd)) v.length = some v := by
    rw [show s.rd + (s.wr - s.rd) = s.wr by omega]
    exact readCells_writeCells s.buf s.wr v
  have hread : readCells (writeCells s.buf s.wr v) s.rd (s.wr + v.length - s.rd) = some (u ++ v) := by
    rw [show s.wr + v.length - s.rd = s.wr - s.rd + v.length by omega]
    exact readCells_append hold hnew
  exact ⟨inv_of_writeCells h.inv hfit (by omega) hfit hread, h.cfg, h.crcAcc, hread⟩

/-- Raising RD within the unread region drops unread bytes (R166). -/
theorem Represents.dropped {s : State} {c : Config} {acc : Half} {u : List Byte} (h : Represents s c acc u) {n : Nat}
    (hn : n ≤ u.length) : Represents { s with rd := s.rd + n } c acc (u.drop n) := by
  obtain ⟨hcfg, hrd, hwr, hwf, hcap, -⟩ := h.inv
  have hlen := h.length_unread
  have hread : readCells s.buf (s.rd + n) (s.wr - (s.rd + n)) = some (u.drop n) := by
    have hdrop := readCells_drop h.unread n (s.wr - (s.rd + n)) (by omega)
    rwa [List.take_of_length_le (by rw [List.length_drop]; omega)] at hdrop
  have hinv : ({ s with rd := s.rd + n } : State).Inv :=
    ⟨hcfg, show s.rd + n ≤ s.wr by omega, hwr, hwf, hcap, written_of_unread (s := { s with rd := s.rd + n }) hread⟩
  exact ⟨hinv, h.cfg, h.crcAcc, hread⟩

/-- The abstract feed without a discard, when there is room for `k` bytes. -/
theorem absFeed_of_not_full {cap : Nat} {u data : List Byte} (h : ¬ (u.length = cap ∧ 1 ≤ data.length)) :
    absFeed cap u data = (u ++ data.take (min data.length (cap - u.length)), min data.length (cap - u.length)) := by
  simp only [absFeed, if_neg h]

/-- The abstract feed into a full buffer. -/
theorem absFeed_of_full {cap : Nat} {u data : List Byte} (hu : u.length = cap) (hd : 1 ≤ data.length) :
    absFeed cap u data = (data.take (min data.length cap), min data.length cap) := by
  simp only [absFeed, if_pos (And.intro hu hd), List.length_nil, Nat.sub_zero, List.nil_append]

/-- The copy of what fits, after the room has been made. -/
theorem Represents.copiedWhatFits {s : State} {c : Config} {acc : Half} {u : List Byte} (h : Represents s c acc u)
    (data : List Byte) {k : Nat} (hk : k = min data.length (s.cfg.cap - s.wr)) :
    Represents { s with buf := writeCells s.buf s.wr (data.take k), wr := s.wr + k } c acc (u ++ data.take k) := by
  obtain ⟨-, hrd, hwr, -⟩ := h.inv
  have hlen : (data.take k).length = k := by
    rw [List.length_take]
    omega
  have hcopied := h.copied (v := data.take k) (by rw [hlen, ← h.cfg]; omega)
  rwa [hlen] at hcopied

/-- SB.FEED on the buffer is the abstract feed (R170), and where the cursors come to stand. -/
theorem Represents.feed {s : State} {c : Config} {acc : Half} {u : List Byte} (h : Represents s c acc u) (data : List Byte) :
    ∃ t, feed data s = .ok (t, (absFeed c.cap u data).2) ∧ Represents t c acc (absFeed c.cap u data).1 ∧
      (data.length ≤ c.cap - s.wr → t.rd = s.rd ∧ t.wr = s.wr + data.length) ∧
      (c.cap - s.wr < data.length → t.rd = 0) := by
  obtain ⟨t, k, hf⟩ := feed_answers (data := data) h.inv
  obtain ⟨hcfg, hrd, hwr, -⟩ := h.inv
  obtain ⟨hcap, -⟩ := hcfg
  have hlen := h.length_unread
  have hc := h.cfg
  subst hc
  obtain ⟨s', hk, ht, ⟨hroom, rfl⟩ | ⟨u', hroom, hu', hcase⟩⟩ := feed_cases hf
  · have habs := absFeed_of_not_full (cap := s'.cfg.cap) (u := u) (data := data) (by omega)
    have hk' : k = data.length := by omega
    have hmin : min data.length (s'.cfg.cap - u.length) = k := by omega
    rw [hmin] at habs
    rw [habs]
    subst ht
    exact ⟨_, hf, h.copiedWhatFits data hk, fun _ => ⟨rfl, congrArg (s'.wr + ·) hk'⟩, fun hlt => by omega⟩
  · obtain rfl : u' = u := Option.some_injective _ (hu'.symm.trans h.unread)
    rcases hcase with ⟨hnot, rfl⟩ | ⟨hfull, rfl⟩
    · have habs := absFeed_of_not_full (cap := s.cfg.cap) (u := u') (data := data) (by omega)
      rw [hlen, ← hk] at habs
      rw [habs]
      subst ht
      exact ⟨_, hf, h.compacted.copiedWhatFits data hk, fun hle => by omega, fun _ => rfl⟩
    · have habs := absFeed_of_full (cap := s.cfg.cap) (u := u') (data := data) (by omega) (by omega)
      have hk' : k = min data.length s.cfg.cap := hk
      rw [← hk'] at habs
      rw [habs]
      subst ht
      exact ⟨_, hf, h.compacted.discarded.copiedWhatFits data hk, fun hle => by omega, fun _ => rfl⟩

/-- SB.PULL on the buffer is the abstract pull (R170). -/
theorem Represents.pull {s : State} {c : Config} {acc : Half} {u : List Byte} (h : Represents s c acc u) :
    ∃ t, pull s = .ok (t, (absPull u).2) ∧ Represents t c acc (absPull u).1 := by
  refine ⟨_, pull_eq h.inv h.unread, ?_⟩
  have hdropped := h.dropped (n := u.length - (absPull u).1.length) (Nat.sub_le _ _)
  rwa [← absPull_eq_drop] at hdropped

/-! ## Every operation on CRCACC and the unread bytes -/

/-- The response that an answer gives. -/
def responseOf : Except Err Response → Response
  | .ok r => r
  | .error e => .error e

theorem answer_eq_respond (s : State) (x : Except Err Response) : answer s x = respond s (responseOf x) := by
  cases x <;> rfl

/-- An operation as a function of what the host can know of the block: the next CRCACC, the next unread bytes and the
response; none for a descriptor that the port refuses (R84). `Represents.exec` says that every operation is this function. -/
def absExec (c : Config) (acc : Half) (u : List Byte) : Instr → Option (Half × List Byte × Response)
  | .crcClr => some (0x0000#16, u, .done)
  | .crcUpd b => some (crcStep acc b, u, .done)
  | .crcRd => some (acc, u, .checksum acc)
  | .fpDec window => some (acc, u, responseOf (decodeResponse (parse window)))
  | .sbFeed data => some (acc, (absFeed c.cap u data).1, .copied (absFeed c.cap u data).2)
  | .sbPull => some (acc, (absPull u).1, .pulled (absPull u).2)
  | .fbEnc cmd dcap =>
    if nestsWithin cmd c.maxNest.val then some (acc, u, responseOf (buildResponse (pack cmd) dcap)) else none
  | .rxGetValues len rest =>
    some (acc, u, responseOf (decodeResponse (parseGetValues (startMarker :: len :: idGetValues :: rest) len 2 3)))
  | .rxGetValuesSelective len rest =>
    some (acc, u, responseOf (decodeResponse (parseSelective (startMarker :: len :: idGetValuesSelective :: rest) len 2 3)))
  | .txGetValues dcap => some (acc, u, responseOf (buildResponse packGetValues dcap))
  | .txSetCurrent raw dcap => some (acc, u, responseOf (buildResponse (packSetCurrent raw) dcap))
  | .txSetRpm rpm dcap => some (acc, u, responseOf (buildResponse (packSetRpm rpm) dcap))
  | .txSetHandbrake raw dcap => some (acc, u, responseOf (buildResponse (packSetHandbrake raw) dcap))
  | .txForwardCan target inner dcap =>
    if nestsWithin (.forwardCan target inner) c.maxNest.val then
      some (acc, u, responseOf (buildResponse (pack (.forwardCan target inner)) dcap))
    else none
  | .txGetValuesSelective mask dcap => some (acc, u, responseOf (buildResponse (packGetValuesSelective mask) dcap))

/-- What `absExec` says of an operation on a state: refused by both, or the same next contents and the same response. -/
def Refines (s : State) (c : Config) (acc : Half) (u : List Byte) (i : Instr) : Prop :=
  (absExec c acc u i = none ∧ exec i s = .refused .nestedDeeperThanMaxNest) ∨
    ∃ acc' u' r t, absExec c acc u i = some (acc', u', r) ∧ exec i s = .next t ∧ Represents t c acc' u' ∧
      t.responses = s.responses ++ [r]

/-- An operation that only answers. -/
theorem Represents.refines_of_answer {s : State} {c : Config} {acc : Half} {u : List Byte} {i : Instr}
    {x : Except Err Response} (h : Represents s c acc u) (habs : absExec c acc u i = some (acc, u, responseOf x))
    (hexec : exec i s = .next (answer s x)) : Refines s c acc u i := by
  rw [answer_eq_respond] at hexec
  exact .inr ⟨acc, u, responseOf x, _, habs, hexec, h.respond _, rfl⟩

/-- A build of a descriptor, with the check on its nesting. -/
theorem Represents.refines_fbEnc {s : State} {c : Config} {acc : Half} {u : List Byte} (h : Represents s c acc u)
    (cmd : Cmd) (dcap : Nat) : Refines s c acc u (.fbEnc cmd dcap) := by
  have harm : exec (.fbEnc cmd dcap) s = if nestsWithin cmd s.cfg.maxNest.val
    then .next (answer s (buildResponse (pack cmd) dcap)) else .refused .nestedDeeperThanMaxNest := rfl
  rw [h.cfg] at harm
  by_cases hn : nestsWithin cmd c.maxNest.val = true
  · exact h.refines_of_answer (if_pos hn) (harm.trans (if_pos hn))
  · exact .inl ⟨if_neg hn, harm.trans (if_neg hn)⟩

/-- Every operation acts on CRCACC and the unread bytes as `absExec` says (R30, R170). -/
theorem Represents.exec {s : State} {c : Config} {acc : Half} {u : List Byte} (h : Represents s c acc u) (i : Instr) :
    Refines s c acc u i := by
  cases i with
  | crcClr => exact .inr ⟨_, _, _, _, rfl, rfl, (h.withCrcAcc _).respond _, rfl⟩
  | crcUpd b =>
    obtain rfl := h.crcAcc
    exact .inr ⟨_, _, _, _, rfl, rfl, (h.withCrcAcc _).respond _, rfl⟩
  | crcRd =>
    obtain rfl := h.crcAcc
    exact .inr ⟨_, _, _, _, rfl, rfl, h.respond _, rfl⟩
  | sbFeed data =>
    obtain ⟨t, hf, ht, -⟩ := h.feed data
    obtain ⟨-, -, -, hresp⟩ := feed_frame hf
    exact .inr ⟨_, _, _, _, rfl, exec_sbFeed_of_feed hf, ht.respond _, congrArg (· ++ _) hresp⟩
  | sbPull =>
    obtain ⟨t, hp, ht⟩ := h.pull
    obtain ⟨n, rfl⟩ := pull_frame hp
    exact .inr ⟨_, _, _, _, rfl, exec_sbPull_of_pull hp, ht.respond _, rfl⟩
  | fbEnc cmd dcap => exact h.refines_fbEnc cmd dcap
  | txForwardCan target inner dcap => exact h.refines_fbEnc (.forwardCan target inner) dcap
  | fpDec _ | rxGetValues _ _ | rxGetValuesSelective _ _ | txGetValues _ | txSetCurrent _ _ | txSetRpm _ _
  | txSetHandbrake _ _ | txGetValuesSelective _ _ => exact h.refines_of_answer rfl rfl

/-- The operations that the port admits are those that `absExec` answers (R84). -/
theorem absExec_isSome_of_admits {c : Config} {i : Instr} (h : admits c i = true) (acc : Half) (u : List Byte) :
    (absExec c acc u i).isSome = true := by
  cases i with
  | fbEnc cmd dcap =>
    have hn : nestsWithin cmd c.maxNest.val = true := (nestsWithin_iff _ _).mpr (of_decide_eq_true h)
    simp [absExec, hn]
  | txForwardCan target inner dcap =>
    have hn : nestsWithin (.forwardCan target inner) c.maxNest.val = true := (nestsWithin_iff _ _).mpr (of_decide_eq_true h)
    simp [absExec, hn]
  | _ => rfl

/-- An operation that answers: what it leaves represents the next contents. -/
theorem Represents.of_exec_next {s t : State} {c : Config} {acc : Half} {u : List Byte} {i : Instr}
    (h : Represents s c acc u) (hexec : Machine.exec i s = .next t) :
    ∃ acc' u' r, absExec c acc u i = some (acc', u', r) ∧ Represents t c acc' u' ∧ t.responses = s.responses ++ [r] := by
  rcases h.exec i with ⟨-, href⟩ | ⟨acc', u', r, t', habs, hnext, ht, hresp⟩
  · rw [hexec] at href
    cases href
  · obtain rfl : t = t' := Host.Outcome.next.inj (hexec.symm.trans hnext)
    exact ⟨acc', u', r, habs, ht, hresp⟩

/-- An operation with an abstract answer completes. -/
theorem Represents.exec_next {s : State} {c : Config} {acc acc' : Half} {u u' : List Byte} {i : Instr} {r : Response}
    (h : Represents s c acc u) (habs : absExec c acc u i = some (acc', u', r)) :
    ∃ t, Machine.exec i s = .next t ∧ Represents t c acc' u' ∧ t.responses = s.responses ++ [r] := by
  rcases h.exec i with ⟨hnone, -⟩ | ⟨acc'', u'', r'', t, habs', hnext, ht, hresp⟩
  · rw [habs] at hnone
    cases hnone
  · rw [habs] at habs'
    cases habs'
    exact ⟨t, hnext, ht, hresp⟩

/-- An operation that the port admits completes and keeps the invariant and the parameters. -/
theorem exec_completes {s : State} {i : Instr} (h : s.Inv) (hadm : admits s.cfg i = true) :
    ∃ t, exec i s = .next t ∧ t.Inv ∧ t.cfg = s.cfg := by
  obtain ⟨u, hs⟩ := exists_represents h
  obtain ⟨⟨acc', u', r⟩, habs⟩ := Option.isSome_iff_exists.mp (absExec_isSome_of_admits hadm s.crcAcc u)
  obtain ⟨t, hnext, ht, -⟩ := hs.exec_next habs
  exact ⟨t, hnext, ht.inv, ht.cfg⟩

/-- Two states that represent the same contents answer an operation alike (decision D19). -/
theorem exec_agree {s s' t : State} {c : Config} {acc : Half} {u : List Byte} {i : Instr} (h : Represents s c acc u)
    (h' : Represents s' c acc u) (hresp : s'.responses = s.responses) (hexec : exec i s = .next t) :
    ∃ t' acc' u', exec i s' = .next t' ∧ Represents t c acc' u' ∧ Represents t' c acc' u' ∧ t'.responses = t.responses := by
  obtain ⟨acc', u', r, habs, ht, htr⟩ := h.of_exec_next hexec
  obtain ⟨t', hexec', ht', htr'⟩ := h'.exec_next habs
  exact ⟨t', acc', u', hexec', ht, ht', by rw [htr', htr, hresp]⟩

/-! ## Sequences of operations -/

theorem execAll_cons_of_next {i : Instr} {s t : State} (h : exec i s = .next t) (rest : List Instr) :
    execAll (i :: rest) s = execAll rest t := by
  simp only [execAll, h]

theorem execAll_append_of_next {ops : List Instr} {s t : State} (h : execAll ops s = .next t) (rest : List Instr) :
    execAll (ops ++ rest) s = execAll rest t := by
  induction ops generalizing s with
  | nil =>
    cases h
    rfl
  | cons i ops ih =>
    rw [execAll] at h
    split at h
    · rename_i s1 hexec
      exact (execAll_cons_of_next hexec _).trans (ih h)
    · cases h
    · cases h

/-- A sequence that completes: its first operation completes, and the rest from there. -/
theorem execAll_cons_next {i : Instr} {rest : List Instr} {s t : State} (h : execAll (i :: rest) s = .next t) :
    ∃ s1, exec i s = .next s1 ∧ execAll rest s1 = .next t := by
  rw [execAll] at h
  split at h
  · rename_i s1 hexec
    exact ⟨s1, hexec, h⟩
  · cases h
  · cases h

/-- Two states that represent the same contents answer a sequence of operations alike. -/
theorem execAll_agree {ops : List Instr} {s s' t : State} {c : Config} {acc : Half} {u : List Byte}
    (h : Represents s c acc u) (h' : Represents s' c acc u) (hresp : s'.responses = s.responses)
    (hexec : execAll ops s = .next t) :
    ∃ t' acc' u', execAll ops s' = .next t' ∧ Represents t c acc' u' ∧ Represents t' c acc' u' ∧
      t'.responses = t.responses := by
  induction ops generalizing s s' acc u with
  | nil =>
    cases hexec
    exact ⟨s', acc, u, rfl, h, h', hresp⟩
  | cons i rest ih =>
    obtain ⟨s1, hi, hrest⟩ := execAll_cons_next hexec
    obtain ⟨s1', acc1, u1, hi', h1, h1', hresp1⟩ := exec_agree h h' hresp hi
    rw [execAll_cons_of_next hi']
    exact ih h1 h1' hresp1 hrest

/-! ## One step -/

theorem step_of_message_ok {s : State} {channel : Channel} {bytes : List Byte} {rest : List Input} {i : Instr}
    (h : s.inputs = .message channel bytes :: rest) (hd : decode channel bytes = .ok i) :
    step s = exec i { s with inputs := rest } := by
  simp only [step, nextInput, h, hd]

theorem step_of_message_error {s : State} {channel : Channel} {bytes : List Byte} {rest : List Input} {why : DecodeError}
    (h : s.inputs = .message channel bytes :: rest) (hd : decode channel bytes = .error why) :
    step s = .refused (.undecoded why) := by
  simp only [step, nextInput, h, hd]

theorem step_of_reset {s : State} {rest : List Input} (h : s.inputs = .reset :: rest) :
    step s = .next (applyReset { s with inputs := rest }) := by
  simp only [step, nextInput, h]

theorem step_of_no_input {s : State} (h : s.inputs = []) : step s = .next s := by
  simp only [step, nextInput, h]

/-- The parameters of the block that is built are admissible (spec/00_scope.md R7). -/
theorem built_wellFormed : Config.built.WellFormed := by
  refine ⟨Nat.succ_pos _, ?_⟩
  simp only [Config.built]
  split
  · assumption
  · exact Nat.lt_two_pow_self

end Sys2Proof.Machine

namespace Sys2Proof.Proofs

open Sys2Proof Sys2Proof.Machine

/-- Settles O3: a step is idle, a reset, or an operation, and an operation leaves a state that represents something. -/
theorem everyStepKeepsInvariant : Obligations.EveryStepKeepsInvariant := by
  intro s t hinv hstep
  rcases step_cases s with ⟨-, h⟩ | ⟨rest, -, h⟩ | ⟨c, bytes, rest, why, -, -, h⟩ | ⟨c, bytes, rest, i, -, -, h⟩
  · rw [h] at hstep
    cases hstep
    exact ⟨hinv, rfl⟩
  · rw [h] at hstep
    cases hstep
    obtain ⟨hcfg, -⟩ := hinv
    exact ⟨⟨hcfg, le_rfl, Nat.zero_le _, .nil, nofun, nofun⟩, rfl⟩
  · rw [h] at hstep
    cases hstep
  · rw [h] at hstep
    obtain ⟨u, hs⟩ := exists_represents hinv
    obtain ⟨acc', u', r, -, ht, -⟩ := (hs.withInputs rest).of_exec_next hstep
    exact ⟨ht.inv, ht.cfg⟩

/-- Settles O12: both states represent the same contents, and go on doing so. -/
theorem responsesDependOnUnreadBytesOnly : Obligations.ResponsesDependOnUnreadBytesOnly := by
  intro ops s s' t hinv hinv' hcfg hacc hunread hresp hexec
  obtain ⟨u, hs⟩ := exists_represents hinv
  have hs' : Represents s' s.cfg s.crcAcc u := ⟨hinv', hcfg, hacc, hunread.trans hs.unread⟩
  obtain ⟨t', acc', u', hexec', ht, ht', htr⟩ := execAll_agree hs hs' hresp hexec
  exact ⟨t', hexec', htr, ht'.crcAcc.trans ht.crcAcc.symm, ht'.unread.trans ht.unread.symm⟩

/-- Settles O45, by the abstract form of the two operations. -/
theorem streamBufferRefinesUnreadSequence : Obligations.StreamBufferRefinesUnreadSequence := by
  intro s hinv
  obtain ⟨u, hs⟩ := exists_represents hinv
  refine ⟨u, hs.unread, hs.length_le_cap, fun data => ?_, ?_⟩
  · obtain ⟨t, hexec, ht, hresp⟩ := hs.exec_next (i := .sbFeed data) rfl
    exact ⟨t, hexec, hresp, ht.unread⟩
  · obtain ⟨t, hexec, ht, hresp⟩ := hs.exec_next (i := .sbPull) rfl
    exact ⟨t, hexec, hresp, ht.unread⟩

/-- Settles O8: each operation ends in `respond`, from a state that differs in CRCACC or in the buffer only. -/
theorem oneResponsePerOperation : Obligations.OneResponsePerOperation := by
  intro i s t hexec
  rcases exec_next_writes hexec with ⟨-, rfl⟩ | ⟨b, -, rfl⟩ | ⟨data, s', k, -, hf, rfl⟩ | ⟨s', r, -, hp, rfl⟩ | ⟨r, rfl⟩
  · exact ⟨⟨_, rfl⟩, rfl, rfl⟩
  · exact ⟨⟨_, rfl⟩, rfl, rfl⟩
  · obtain ⟨-, hcfg, hinputs, hresp⟩ := feed_frame hf
    exact ⟨⟨_, congrArg (· ++ _) hresp⟩, hcfg, hinputs⟩
  · obtain ⟨n, rfl⟩ := pull_frame hp
    exact ⟨⟨_, rfl⟩, rfl, rfl⟩
  · exact ⟨⟨_, rfl⟩, rfl, rfl⟩

/-- Settles O9: the abstract form refuses nothing that the port admits. -/
theorem admittedOperationsComplete : Obligations.AdmittedOperationsComplete := by
  intro i s hinv hadm
  obtain ⟨t, hexec, -⟩ := exec_completes hinv hadm
  exact ⟨t, hexec⟩

/-- Settles O11: the operations that write state are the four that the hypotheses exclude. -/
theorem pureOperationsOnlyRespond : Obligations.PureOperationsOnlyRespond := by
  intro i s t hclr hupd hfeed hpull hexec
  rcases exec_next_writes hexec with ⟨hi, -⟩ | ⟨b, hi, -⟩ | ⟨data, -, -, hi, -⟩ | ⟨-, -, hi, -⟩ | hresp
  · exact absurd hi hclr
  · exact absurd hi (hupd b)
  · exact absurd hi (hfeed data)
  · exact absurd hi hpull
  · exact hresp

/-- Settles O1: reset fixes every field but the parameters, which a pull of an empty region does not read. -/
theorem resetLeavesCursorsAndAccumulatorZero : Obligations.ResetLeavesCursorsAndAccumulatorZero :=
  ⟨rfl, rfl, rfl, rfl, fun _ => rfl, rfl, rfl, rfl⟩

/-- Settles O2: the parameters are admissible, and BUF lists no byte. -/
theorem resetMeetsInvariant : Obligations.ResetMeetsInvariant :=
  ⟨built_wellFormed, le_rfl, Nat.zero_le _, .nil, nofun, nofun⟩

/-- Settles O4, by the equation of a step on a message that decodes. -/
theorem stepRunsDecodedInstruction : Obligations.StepRunsDecodedInstruction :=
  fun _ _ _ _ _ hinputs hdecode _ => step_of_message_ok hinputs hdecode

/-- Settles O5, by the equation of a step without an input. -/
theorem idleStepChangesNothing : Obligations.IdleStepChangesNothing := fun _ => step_of_no_input

/-- Settles O6, by the equation of a step on a reset. -/
theorem resetInputActsAtOnce : Obligations.ResetInputActsAtOnce := fun _ _ => step_of_reset

end Sys2Proof.Proofs
end

section
/-! PROOFS. The CRC unit: the table form of the step, the laws of the checksum, and CRCACC under sequences of operations. -/

namespace Sys2Proof.Machine

/-! ## The step in table form (R103, R104) -/

theorem length_crcTable : crcTable.length = 256 := by decide +kernel

/-- The table holds the steps from 0 (R104). -/
theorem crcTable_getD (b : Byte) : crcTable.getD b.toNat 0x0000#16 = crcStep 0x0000#16 b := by
  revert b
  decide +kernel

/-- Eight shifts of a string with an empty high byte lose no bit, so POLY never enters. -/
theorem crcShifts_low (b : Byte) : crcShifts 8 (b.zeroExtend 16) = b.zeroExtend 16 <<< 8 := by
  revert b
  decide +kernel

/-- A 16-bit string is its low byte, joined with its high byte above it. -/
theorem half_eq_low_xor_high (acc : Half) :
    acc = (acc.extractLsb' 0 8).zeroExtend 16 ^^^ (acc.extractLsb' 8 8).zeroExtend 16 <<< 8 := by
  apply BitVec.eq_of_getLsbD_eq
  intro i hi
  by_cases h : i < 8
  · simp [h, hi]
  · simp [h, hi, show 8 + (i - 8) = i by omega, show i - 8 < 8 by omega]

/-- A shift by a byte drops the high byte. -/
theorem shiftLeft_low (acc : Half) : (acc.extractLsb' 0 8).zeroExtend 16 <<< 8 = acc <<< 8 := by
  apply BitVec.eq_of_getLsbD_eq
  intro i hi
  by_cases h : i < 8
  · simp [h]
  · simp [h, hi, show i - 8 < 8 by omega]
    rfl

/-- A shift by a byte brings the low byte to the top. -/
theorem extract_high_shiftLeft (acc : Half) : (acc <<< 8).extractLsb' 8 8 = acc.extractLsb' 0 8 := by
  apply BitVec.eq_of_getLsbD_eq
  intro i hi
  simp [hi, show 8 + i < 16 by omega]
  rfl

/-- The step in table form, R103: the low byte moves up, and the high byte with the new byte selects the table's entry. -/
theorem crcStep_eq_table (acc : Half) (b : Byte) :
    crcStep acc b = (acc <<< 8) ^^^ crcTable.getD ((acc.extractLsb' 8 8 ^^^ b).toNat) 0x0000#16 := by
  have hsplit : acc ^^^ b.zeroExtend 16 <<< 8 =
      (acc.extractLsb' 0 8).zeroExtend 16 ^^^ (acc.extractLsb' 8 8 ^^^ b).zeroExtend 16 <<< 8 := by
    conv_lhs => rw [half_eq_low_xor_high acc]
    rw [BitVec.xor_assoc, ← BitVec.shiftLeft_xor_distrib]
    rfl
  rw [crcTable_getD, crcStep, hsplit, crcShifts_xor, crcShifts_low, shiftLeft_low, crcStep, BitVec.zero_xor]

/-- A step with the accumulator's own high byte only shifts. -/
theorem crcStep_own_high (acc : Half) : crcStep acc (acc.extractLsb' 8 8) = acc <<< 8 := by
  have hzero : crcTable.getD (0#8).toNat 0x0000#16 = 0x0000#16 := rfl
  rw [crcStep_eq_table, BitVec.xor_self, hzero, BitVec.xor_zero]

/-! ## The laws of R105 -/

/-- Folding an accumulator's own two bytes, high byte first, leaves 0. -/
theorem crcFold_own_bytes (acc : Half) : crcFold acc (bytesBe2 acc) = 0x0000#16 := by
  have hlow := crcStep_own_high (acc <<< 8)
  rw [extract_high_shiftLeft] at hlow
  rw [bytesBe2, crcFold_cons, crcFold_cons, crcFold_nil, crcStep_own_high, hlow, ← BitVec.shiftLeft_add]
  exact BitVec.shiftLeft_eq_zero (by decide)

/-- The step is linear in the accumulator and the byte together. -/
theorem crcStep_xor (acc acc' : Half) (b b' : Byte) :
    crcStep (acc ^^^ acc') (b ^^^ b') = crcStep acc b ^^^ crcStep acc' b' := by
  have hbytes : (b ^^^ b').zeroExtend 16 <<< 8 = (b.zeroExtend 16 <<< 8 ^^^ b'.zeroExtend 16 <<< 8 : Half) :=
    BitVec.shiftLeft_xor_distrib (b.zeroExtend 16) (b'.zeroExtend 16) 8
  simp only [crcStep, ← crcShifts_xor, hbytes]
  congr 1
  ac_rfl

/-- So is the fold, over sequences of equal length. -/
theorem crcFold_xor (acc acc' : Half) (a b : List Byte) (h : a.length = b.length) :
    crcFold (acc ^^^ acc') (List.zipWith (· ^^^ ·) a b) = crcFold acc a ^^^ crcFold acc' b := by
  induction a generalizing b acc acc' with
  | nil =>
    obtain rfl : b = [] := List.eq_nil_of_length_eq_zero h.symm
    rfl
  | cons x a ih =>
    cases b with
    | nil => simp at h
    | cons y b =>
      rw [List.zipWith_cons_cons, crcFold_cons, crcFold_cons, crcFold_cons, crcStep_xor]
      exact ih _ _ b (Nat.succ.inj h)

theorem crcFold_zeros (n : Nat) : crcFold 0x0000#16 (List.replicate n 0#8) = 0x0000#16 := by
  induction n with
  | zero => rfl
  | succ n ih => exact ih

/-! ## CRCACC under operations (R109) -/

theorem updBytes_cons (i : Instr) (rest : List Instr) : updBytes (i :: rest) = updBytes [i] ++ updBytes rest := by
  cases i <;> rfl

/-- No operation but CRC.CLR and CRC.UPD writes CRCACC (R33). -/
theorem crcAcc_eq_of_exec_next {i : Instr} {s t : State} (hclr : i ≠ .crcClr) (hupd : ∀ b, i ≠ .crcUpd b)
    (h : exec i s = .next t) : t.crcAcc = s.crcAcc := by
  rcases exec_next_writes h with ⟨hi, -⟩ | ⟨b, hi, -⟩ | ⟨data, s', k, -, hf, rfl⟩ | ⟨s', r, -, hp, rfl⟩ | ⟨r, rfl⟩
  · exact absurd hi hclr
  · exact absurd hi (hupd b)
  · obtain ⟨hacc, -⟩ := feed_frame hf
    exact hacc
  · obtain ⟨n, rfl⟩ := pull_frame hp
    rfl
  · rfl

/-- An operation other than CRC.CLR folds the byte that it gives, if any, into CRCACC. -/
theorem crcAcc_of_exec_next {i : Instr} {s t : State} (hclr : i ≠ .crcClr) (h : exec i s = .next t) :
    t.crcAcc = crcFold s.crcAcc (updBytes [i]) := by
  cases i with
  | crcUpd b =>
    cases h
    rfl
  | _ => exact crcAcc_eq_of_exec_next hclr nofun h

/-- A sequence of admitted operations without CRC.CLR completes, and folds the bytes that it gives into CRCACC. -/
theorem execAll_folds_updBytes {ops : List Instr} {s : State} (hinv : s.Inv)
    (hops : ∀ i ∈ ops, i ≠ .crcClr ∧ admits s.cfg i = true) :
    ∃ t, execAll ops s = .next t ∧ t.crcAcc = crcFold s.crcAcc (updBytes ops) := by
  induction ops generalizing s with
  | nil => exact ⟨s, rfl, rfl⟩
  | cons i rest ih =>
    obtain ⟨⟨hi, hadm⟩, hrest⟩ := List.forall_mem_cons.mp hops
    obtain ⟨s1, hexec, hinv1, hcfg1⟩ := exec_completes hinv hadm
    obtain ⟨t, hexecAll, hacc⟩ := ih hinv1 (hcfg1 ▸ hrest)
    refine ⟨t, (execAll_cons_of_next hexec rest).trans hexecAll, ?_⟩
    rw [hacc, crcAcc_of_exec_next hi hexec, ← crcFold_append, ← updBytes_cons]

/-- CRC.UPD of each byte of a sequence, one after another. -/
theorem execAll_map_crcUpd (bytes : List Byte) (s : State) : execAll (bytes.map .crcUpd) s =
    .next { s with crcAcc := crcFold s.crcAcc bytes, responses := s.responses ++ List.replicate bytes.length .done } := by
  induction bytes generalizing s with
  | nil => simp [execAll]
  | cons b bytes ih =>
    have hexec : exec (.crcUpd b) s = .next (respond { s with crcAcc := crcStep s.crcAcc b } .done) := rfl
    rw [List.map_cons, execAll_cons_of_next hexec, ih]
    simp [List.replicate_succ]

end Sys2Proof.Machine

namespace Sys2Proof.Proofs

open Sys2Proof Sys2Proof.Machine

/-- Settles O23: a sequence folds its bytes into CRCACC, from 0 in both cases. -/
theorem accumulatorHoldsChecksumOfUpdates : Obligations.AccumulatorHoldsChecksumOfUpdates := by
  intro ops s hinv hops
  refine ⟨?_, fun hzero => ?_⟩
  · obtain ⟨u, hs⟩ := exists_represents hinv
    have hclr : exec .crcClr s = .next (respond { s with crcAcc := 0x0000#16 } .done) := rfl
    obtain ⟨t, hexec, hacc⟩ := execAll_folds_updBytes ((hs.withCrcAcc 0x0000#16).respond .done).inv hops
    exact ⟨t, (execAll_cons_of_next hclr ops).trans hexec, hacc.trans (crc16_eq_fold _).symm⟩
  · obtain ⟨t, hexec, hacc⟩ := execAll_folds_updBytes hinv hops
    rw [hzero, ← crc16_eq_fold] at hacc
    exact ⟨t, hexec, hacc⟩

/-- Settles O17, by the table form of the step. -/
theorem crcUpdFoldsOneByteByTable : Obligations.CrcUpdFoldsOneByteByTable := by
  intro b s
  rw [← crcStep_eq_table]
  rfl

/-- Settles O20: after the sequence, the fold takes the accumulator's own two bytes. -/
theorem crcResidueIsZero : Obligations.CrcResidueIsZero := by
  intro s
  rw [crc16_eq_fold, crcFold_append, ← crc16_eq_fold, crcFold_own_bytes]

/-- Settles O21: the fold is linear, and both folds start from 0. -/
theorem crcIsLinear : Obligations.CrcIsLinear := by
  intro a b hlen
  have hxor := crcFold_xor 0x0000#16 0x0000#16 a b hlen
  rwa [BitVec.xor_zero, ← crc16_eq_fold, ← crc16_eq_fold, ← crc16_eq_fold] at hxor

/-- Settles O22: a step with a zero byte from 0 is 0. -/
theorem crcIgnoresLeadingZeros : Obligations.CrcIgnoresLeadingZeros := by
  intro n s
  rw [crc16_eq_fold, crcFold_append, crcFold_zeros, ← crc16_eq_fold]

/-- Settles O24, by the writes of each operation. -/
theorem onlyCrcOperationsWriteAccumulator : Obligations.OnlyCrcOperationsWriteAccumulator :=
  fun _ _ _ hclr hupd hexec => crcAcc_eq_of_exec_next hclr hupd hexec

/-- Settles O25: after CRC.CLR the updates fold the bytes from 0, and CRC.RD answers the result. -/
theorem crcOfAnswersChecksum : Obligations.CrcOfAnswersChecksum := by
  intro bytes s
  have hclr : exec .crcClr s = .next (respond { s with crcAcc := 0x0000#16 } .done) := rfl
  rw [crcOf, execAll_cons_of_next hclr, execAll_append_of_next (execAll_map_crcUpd bytes _), crc16_eq_fold]
  have hrd : ∀ s, exec .crcRd s = .next (respond s (.checksum s.crcAcc)) := fun _ => rfl
  rw [execAll_cons_of_next (hrd _)]
  simp [execAll, respond, List.replicate_succ]

/-- Settles O16: the arm of CRC.CLR. -/
theorem crcClrClearsAccumulator : Obligations.CrcClrClearsAccumulator := fun _ => rfl

/-- Settles O18: the arm of CRC.RD. -/
theorem crcRdReadsWithoutClearing : Obligations.CrcRdReadsWithoutClearing := fun _ => rfl

/-- Settles O19: the steps from 0 are the table's entries; the check value is evaluated. -/
theorem crcTableAndCheckValue : Obligations.CrcTableAndCheckValue :=
  ⟨length_crcTable, crcTable_getD, by decide +kernel⟩

end Sys2Proof.Proofs
end

section
/-! PROOFS. The message form: the decoder reads back what the encoder writes, and answers well-formed instructions only. -/

namespace Sys2Proof

open Sys2Proof.Machine

/-! ## Decoding an encoding (logs 1 to 4) -/

theorem decodeWord_bytesBe4 (v : Word) (rest : List Byte) : decodeWord (bytesBe4 v ++ rest) = .ok (v, rest) := by
  rw [bytesBe4, List.cons_append, List.cons_append, List.cons_append, List.cons_append, List.nil_append, decodeWord,
    be4_bytesBe4]

/-- A descriptor that does not begin with ForwardCan is a leaf, whatever the levels left. -/
theorem decodeCmd_cons_of_ne {tag : Byte} (h : tag ≠ tagForwardCan) (levels : Nat) (rest : List Byte) :
    decodeCmd levels (tag :: rest) = decodeLeaf tag rest := by
  cases levels with
  | zero => rfl
  | succ levels => exact if_neg h

/-- A descriptor with one 32-bit operand reads back. -/
theorem decodeCmd_word {tag : Byte} {cmd : Word → Cmd} (h : tag ≠ tagForwardCan)
    (hleaf : ∀ rest, decodeLeaf tag rest = (decodeWord rest).map fun x => (cmd x.1, x.2)) (levels : Nat) (v : Word)
    (rest : List Byte) : decodeCmd levels (tag :: bytesBe4 v ++ rest) = .ok (cmd v, rest) := by
  rw [List.cons_append, decodeCmd_cons_of_ne h, hleaf, decodeWord_bytesBe4]
  rfl

/-- A descriptor reads back within as many levels as it nests. -/
theorem decodeCmd_encodeCmd {cmd : Cmd} {levels : Nat} (h : cmd.depth ≤ levels) (rest : List Byte) :
    decodeCmd levels (encodeCmd cmd ++ rest) = .ok (cmd, rest) := by
  induction cmd generalizing levels with
  | getValues => exact decodeCmd_cons_of_ne (by decide) levels rest
  | setCurrent raw => exact decodeCmd_word (cmd := .setCurrent) (by decide) (fun _ => rfl) levels raw rest
  | setRpm rpm => exact decodeCmd_word (cmd := .setRpm) (by decide) (fun _ => rfl) levels rpm rest
  | setHandbrake raw => exact decodeCmd_word (cmd := .setHandbrake) (by decide) (fun _ => rfl) levels raw rest
  | getValuesSelective mask =>
    exact decodeCmd_word (cmd := .getValuesSelective) (by decide) (fun _ => rfl) levels mask rest
  | forwardCan target inner ih =>
    cases levels with
    | zero => exact absurd h (Nat.not_succ_le_zero _)
    | succ levels =>
      rw [encodeCmd, List.cons_append, List.cons_append, decodeCmd, if_pos rfl, ih (Nat.le_of_succ_le_succ h)]
      rfl

/-- A command frame of an id and one 32-bit operand reads back with its dcap. -/
theorem map_decodeWord_append (f : Word → Nat → Instr) (v : Word) (dcap : Nat) :
    (decodeWord (bytesBe4 v ++ bytesOfNat dcap)).map (fun x => f x.1 (natOfBytes x.2)) = .ok (f v dcap) := by
  rw [decodeWord_bytesBe4, Except.map, natOfBytes_bytesOfNat]

/-- TX.FORWARD_CAN's selector leaves LENGTH free (log 5). -/
theorem decodeTx_forwardCan (len target : Byte) (rest : List Byte) :
    decodeTx (startMarker :: len :: idForwardCan :: target :: rest) =
      (decodeCmd (maxNestBound - 1) rest).map fun x => .txForwardCan target x.1 (natOfBytes x.2) := by
  have hne : idForwardCan ≠ idGetValues ∧ idForwardCan ≠ idSetCurrent ∧ idForwardCan ≠ idSetRpm ∧
    idForwardCan ≠ idSetHandbrake := by decide
  obtain ⟨h4, h6, h8, h10⟩ := hne
  simp only [decodeTx, h4, h6, h8, h10, and_false, if_false, and_self, if_true]

/-! ## What the decoder can answer -/

theorem map_eq_ok_iff {ε α β : Type} {x : Except ε α} {f : α → β} {b : β} : x.map f = .ok b ↔ ∃ a, x = .ok a ∧ f a = b := by
  cases x <;> simp [Except.map]

/-- A leaf has no ForwardCan level. -/
theorem depth_of_decodeLeaf {tag : Byte} {bytes rest : List Byte} {cmd : Cmd} (h : decodeLeaf tag bytes = .ok (cmd, rest)) :
    cmd.depth = 0 := by
  unfold decodeLeaf at h
  split_ifs at h
  · cases h
    rfl
  all_goals
    obtain ⟨x, -, hx⟩ := map_eq_ok_iff.mp h
    cases hx
    rfl

/-- A descriptor has at most the levels that its decoding was given. -/
theorem depth_le_of_decodeCmd {levels : Nat} {bytes rest : List Byte} {cmd : Cmd}
    (h : decodeCmd levels bytes = .ok (cmd, rest)) : cmd.depth ≤ levels := by
  induction levels generalizing bytes cmd rest with
  | zero =>
    cases bytes with
    | nil => cases h
    | cons tag bytes => exact (depth_of_decodeLeaf h).le
  | succ levels ih =>
    cases bytes with
    | nil => cases h
    | cons tag bytes =>
      by_cases htag : tag = tagForwardCan
      · subst htag
        cases bytes with
        | nil => cases h
        | cons target bytes =>
          obtain ⟨⟨inner, left⟩, hinner, hx⟩ := map_eq_ok_iff.mp h
          cases hx
          exact Nat.succ_le_succ (ih hinner)
      · rw [decodeCmd_cons_of_ne htag] at h
        rw [depth_of_decodeLeaf h]
        exact Nat.zero_le _

theorem wellFormed_of_decodeRx (window : List Byte) : (decodeRx window).wellFormed = true := by
  unfold decodeRx
  split
  · split_ifs <;> rfl
  · rfl

theorem wellFormed_of_decodeBare {i j : Instr} {bytes : List Byte} (hi : i.wellFormed = true)
    (h : decodeBare i bytes = .ok j) : j.wellFormed = true := by
  cases bytes with
  | nil =>
    cases h
    exact hi
  | cons b rest => cases h

theorem wellFormed_of_decodeRequest {bytes : List Byte} {i : Instr} (h : decodeRequest bytes = .ok i) :
    i.wellFormed = true := by
  unfold decodeRequest at h
  split at h
  · cases h
  · split_ifs at h
    · exact wellFormed_of_decodeBare rfl h
    · split at h <;> cases h
      rfl
    · exact wellFormed_of_decodeBare rfl h
    · cases h
      rfl
    · cases h
      rfl
    · exact wellFormed_of_decodeBare rfl h
    · obtain ⟨⟨cmd, rest⟩, hcmd, rfl⟩ := map_eq_ok_iff.mp h
      exact decide_eq_true (depth_le_of_decodeCmd hcmd)

theorem wellFormed_of_decodeTx {bytes : List Byte} {i : Instr} (h : decodeTx bytes = .ok i) : i.wellFormed = true := by
  unfold decodeTx at h
  split at h
  · split_ifs at h
    · cases h
      rfl
    · obtain ⟨x, -, rfl⟩ := map_eq_ok_iff.mp h
      rfl
    · obtain ⟨x, -, rfl⟩ := map_eq_ok_iff.mp h
      rfl
    · obtain ⟨x, -, rfl⟩ := map_eq_ok_iff.mp h
      rfl
    · split at h
      · cases h
      · obtain ⟨⟨inner, rest⟩, hinner, rfl⟩ := map_eq_ok_iff.mp h
        exact decide_eq_true (Nat.succ_le_succ (depth_le_of_decodeCmd hinner))
    · obtain ⟨x, -, rfl⟩ := map_eq_ok_iff.mp h
      rfl
  · cases h

/-- A number that is none of the seven has no operation (R86). -/
theorem decodeRequest_of_unassigned {number : Byte}
    (h : number ∉ [opCrcClr, opCrcUpd, opCrcRd, opFpDec, opSbFeed, opSbPull, opFbEnc]) (operands : List Byte) :
    decodeRequest (number :: operands) = .error (.noSuchOperation number) := by
  simp only [List.mem_cons, List.not_mem_nil, or_false, not_or] at h
  obtain ⟨h0, h1, h2, h3, h4, h5, h6⟩ := h
  simp only [decodeRequest, h0, h1, h2, h3, h4, h5, h6, if_false]

end Sys2Proof

namespace Sys2Proof.Proofs

open Sys2Proof Sys2Proof.Machine

/-- Settles O13: an operand that ends the message is all the rest of it; descriptors and words read back in front of dcap. -/
theorem decodeOfEncodeIsIdentity : Obligations.DecodeOfEncodeIsIdentity := by
  intro i hwf
  cases i with
  | crcClr | crcUpd _ | crcRd | fpDec _ | sbFeed _ | sbPull | rxGetValues _ _ | rxGetValuesSelective _ _ => rfl
  | fbEnc cmd dcap =>
    have hcmd := decodeCmd_encodeCmd (levels := maxNestBound) (of_decide_eq_true hwf) (bytesOfNat dcap)
    change (decodeCmd maxNestBound (encodeCmd cmd ++ bytesOfNat dcap)).map _ = _
    rw [hcmd, Except.map, natOfBytes_bytesOfNat]
  | txGetValues dcap => exact congrArg (fun n => Except.ok (Instr.txGetValues n)) (natOfBytes_bytesOfNat dcap)
  | txSetCurrent raw dcap => exact map_decodeWord_append .txSetCurrent raw dcap
  | txSetRpm rpm dcap => exact map_decodeWord_append .txSetRpm rpm dcap
  | txSetHandbrake raw dcap => exact map_decodeWord_append .txSetHandbrake raw dcap
  | txForwardCan target inner dcap =>
    have hdepth : inner.depth ≤ maxNestBound - 1 := Nat.le_of_succ_le_succ (of_decide_eq_true hwf)
    have hinner := decodeCmd_encodeCmd hdepth (bytesOfNat dcap)
    change decodeTx (startMarker :: _ :: idForwardCan :: target :: (encodeCmd inner ++ bytesOfNat dcap)) = _
    rw [decodeTx_forwardCan, hinner, Except.map, natOfBytes_bytesOfNat]
  | txGetValuesSelective mask dcap => exact map_decodeWord_append .txGetValuesSelective mask dcap

/-- Settles O14: on each channel a descriptor is decoded with the levels that are left of 125. -/
theorem decodedInstructionsAreWellFormed : Obligations.DecodedInstructionsAreWellFormed := by
  intro channel bytes i h
  cases channel with
  | request => exact wellFormed_of_decodeRequest h
  | rx =>
    cases h
    exact wellFormed_of_decodeRx bytes
  | tx => exact wellFormed_of_decodeTx h

/-- Settles O7, by the seven numbers and the equation of a step on a message that does not decode. -/
theorem unassignedNumberIsRefused : Obligations.UnassignedNumberIsRefused :=
  fun _ _ operands _ hinputs hnumber => step_of_message_error hinputs (decodeRequest_of_unassigned hnumber operands)

/-- Settles O15: each word runs through the decoder to its instruction. -/
theorem specWordsDecode : Obligations.SpecWordsDecode :=
  ⟨⟨rfl, fun _ => rfl, rfl, fun _ => rfl, fun _ => rfl, rfl, rfl⟩, fun _ _ => ⟨rfl, rfl⟩, rfl, rfl, rfl, rfl,
    fun len => decodeTx_forwardCan len 5#8 [0#8, 0x08#8], rfl⟩

end Sys2Proof.Proofs
end

section
/-! PROOFS. The frame parser: the windows on which a parse is not IncompleteData, what a parse depends on, and the parse of a
built frame. -/

namespace Sys2Proof.Machine

/-! ## Windows that begin like a reply -/

/-- The window has START and one of the two reply ids at their places. -/
def BeginsReply (w : List Byte) : Prop :=
  3 ≤ w.length ∧ w.getD 0 0#8 = startMarker ∧ (w.getD 2 0#8 = idGetValues ∨ w.getD 2 0#8 = idGetValuesSelective)

/-- From its id on, such a window is parsed by the rest of the table of R136. -/
theorem BeginsReply.parse_eq {w : List Byte} (h : BeginsReply w) : parse w = verdictOfFrame w := by
  obtain ⟨hlen, hstart, hid⟩ := h
  rw [Machine.parse_eq, if_neg (by omega), if_neg (not_not.mpr hstart), if_neg (by omega), if_neg (by tauto)]

theorem beginsReply_getValues (len : Byte) (rest : List Byte) : BeginsReply (startMarker :: len :: idGetValues :: rest) :=
  ⟨Nat.le_add_left 3 _, rfl, .inl rfl⟩

theorem beginsReply_selective (len : Byte) (rest : List Byte) :
    BeginsReply (startMarker :: len :: idGetValuesSelective :: rest) :=
  ⟨Nat.le_add_left 3 _, rfl, .inr rfl⟩

/-- LENGTH is not the length that the id and the mask call for (R126). -/
theorem verdictOfFrame_of_length_ne {w : List Byte} (hlen : calledLength w + 2 ≤ w.length)
    (hne : calledLength w ≠ (w.getD 1 0#8).toNat) : verdictOfFrame w = .error .invalidFrame := by
  rw [verdictOfFrame, if_neg (by omega), if_pos hne]

/-- LENGTH is that length, and all bytes of the frame are there: CHECKSUM and END decide (R127, R128). -/
theorem verdictOfFrame_of_length_eq {w : List Byte} (hlen : calledLength w + 5 ≤ w.length)
    (heq : calledLength w = (w.getD 1 0#8).toNat) : verdictOfFrame w =
      if be2 (w.getD (calledLength w + 2) 0#8) (w.getD (calledLength w + 3) 0#8) ≠
          crc16 ((w.drop 2).take (calledLength w)) then
        .error (.checksumMismatch (be2 (w.getD (calledLength w + 2) 0#8) (w.getD (calledLength w + 3) 0#8))
          (crc16 ((w.drop 2).take (calledLength w))))
      else if w.getD (calledLength w + 4) 0#8 ≠ endMarker then .error .invalidFrame
      else .ok (calledLength w + 5, ⟨kindOf w, valuesOf w⟩) := by
  rw [verdictOfFrame, if_neg (by omega), if_neg (not_not.mpr heq), if_neg (by omega)]

/-- The bytes that a window that begins like a reply needs for its verdict: the payload that its id and mask call for, and
three more if its LENGTH byte names that payload's length (R136, lines 5 to 7). -/
def bytesNeeded (w : List Byte) : Nat :=
  if calledLength w = (w.getD 1 0#8).toNat then calledLength w + 5 else calledLength w + 2

/-- A window that begins like a reply is IncompleteData exactly while bytes are missing for its verdict. -/
theorem BeginsReply.incompleteData_iff {w : List Byte} (h : BeginsReply w) :
    parse w = .error .incompleteData ↔ w.length < bytesNeeded w := by
  rw [h.parse_eq, verdictOfFrame, bytesNeeded]
  split_ifs <;> simp <;> omega

/-- Everything a parse that is not IncompleteData can be: a wrong START, an unknown id, or a reply's beginning with the bytes
for its verdict. -/
theorem not_incompleteData_cases {w : List Byte} (h : parse w ≠ .error .incompleteData) :
    (∃ b rest, w = b :: rest ∧ b ≠ startMarker) ∨
    (∃ len id rest, w = startMarker :: len :: id :: rest ∧ id ≠ idGetValues ∧ id ≠ idGetValuesSelective) ∨
    (BeginsReply w ∧ bytesNeeded w ≤ w.length) := by
  match w with
  | [] => exact absurd parse_nil h
  | b :: rest =>
    by_cases hb : b = startMarker
    · subst hb
      match rest with
      | [] => exact absurd rfl h
      | [len] => exact absurd rfl h
      | len :: id :: rest =>
        by_cases hid : id = idGetValues ∨ id = idGetValuesSelective
        · have hbegins : BeginsReply (startMarker :: len :: id :: rest) := ⟨Nat.le_add_left 3 _, rfl, hid⟩
          exact .inr (.inr ⟨hbegins, not_lt.mp (mt hbegins.incompleteData_iff.mpr h)⟩)
        · obtain ⟨h4, h50⟩ := not_or.mp hid
          exact .inr (.inl ⟨len, id, rest, rfl, h4, h50⟩)
    · exact .inl ⟨b, rest, rfl, hb⟩

/-! ## What a parse depends on -/

/-- A raw value depends on its own bytes. -/
theorem rawAt_congr {ty : WireType} {w w' : List Byte} {p : Nat}
    (h : ∀ i, p ≤ i → i < p + wireSize ty → w'.getD i 0#8 = w.getD i 0#8) : rawAt ty w' p = rawAt ty w p := by
  cases ty with
  | u8 => rw [rawAt, rawAt, h p le_rfl (Nat.lt_succ_self p)]
  | i16 => rw [rawAt, rawAt, h p le_rfl (by simp [wireSize]), h (p + 1) (by omega) (by simp [wireSize])]
  | i32 | u32 =>
    rw [rawAt, rawAt, h p le_rfl (by simp [wireSize]), h (p + 1) (by omega) (by simp [wireSize]),
      h (p + 2) (by omega) (by simp [wireSize]), h (p + 3) (by omega) (by simp [wireSize])]

/-- A record depends on the bytes of its fields. -/
theorem readInto_congr {w w' : List Byte} {fs : List Field} {v : Values} {p : Nat}
    (h : ∀ i, p ≤ i → i < p + fieldsSize fs → w'.getD i 0#8 = w.getD i 0#8) : readInto w' fs v p = readInto w fs v p := by
  induction fs generalizing v p with
  | nil => rfl
  | cons f fs ih =>
    rw [fieldsSize_cons] at h
    rw [readInto, readInto, rawAt_congr fun i h1 h2 => h i h1 (by omega)]
    exact ih fun i h1 h2 => h i (by omega) (by omega)

/-- The mask is read from bytes 3 to 6. -/
theorem maskOf_congr {w w' : List Byte} (h : ∀ i, 2 ≤ i → i < 7 → w'.getD i 0#8 = w.getD i 0#8) : maskOf w' = maskOf w := by
  rw [maskOf, maskOf, h 3 (by omega) (by omega), h 4 (by omega) (by omega), h 5 (by omega) (by omega),
    h 6 (by omega) (by omega)]

/-- The payload length that a window calls for depends on the id and the mask. -/
theorem calledLength_congr {w w' : List Byte} (h : ∀ i, 2 ≤ i → i < 7 → w'.getD i 0#8 = w.getD i 0#8) :
    calledLength w' = calledLength w := by
  rw [calledLength, calledLength, h 2 le_rfl (by omega), maskOf_congr h]

/-- The kind depends on the id. -/
theorem kindOf_congr {w w' : List Byte} (h : w'.getD 2 0#8 = w.getD 2 0#8) : kindOf w' = kindOf w := by
  rw [kindOf, kindOf, h]

/-- The record depends on the payload. -/
theorem valuesOf_congr {w w' : List Byte} (h : ∀ i, 2 ≤ i → i < 2 + calledLength w → w'.getD i 0#8 = w.getD i 0#8) :
    valuesOf w' = valuesOf w := by
  have hbounds := calledLength_bounds w
  have hid := h 2 le_rfl (by omega)
  have hmask : maskOf w' = maskOf w := maskOf_congr fun i h1 h2 => h i h1 (by omega)
  rw [valuesOf, valuesOf, hid, hmask]
  rw [calledLength] at h
  split_ifs at h ⊢
  · exact readInto_congr fun i h1 h2 => h i (by omega) (by rw [fieldsSize_allFields] at h2; omega)
  · exact readInto_congr fun i h1 h2 => h i (by omega) (by omega)

/-- The payload depends on its bytes. -/
theorem payload_append {w more : List Byte} {n : Nat} (h : n + 2 ≤ w.length) :
    ((w ++ more).drop 2).take n = (w.drop 2).take n := by
  rw [List.drop_append_of_le_length (by omega), List.take_append_of_le_length (by rw [List.length_drop]; omega)]

/-- A window with the bytes for its verdict keeps it when more bytes follow. -/
theorem verdictOfFrame_append {w : List Byte} (h : bytesNeeded w ≤ w.length) (more : List Byte) :
    verdictOfFrame (w ++ more) = verdictOfFrame w := by
  have hbounds := calledLength_bounds w
  have hlen : (w ++ more).length = w.length + more.length := List.length_append
  have hget : ∀ i, i < w.length → (w ++ more).getD i 0#8 = w.getD i 0#8 := fun i hi => List.getD_append _ _ _ _ hi
  have hge : calledLength w + 2 ≤ w.length := by
    rw [bytesNeeded] at h
    split_ifs at h <;> omega
  have hcalled : calledLength (w ++ more) = calledLength w := calledLength_congr fun i _ hi => hget i (by omega)
  have hlength : (w ++ more).getD 1 0#8 = w.getD 1 0#8 := hget 1 (by omega)
  by_cases heq : calledLength w = (w.getD 1 0#8).toNat
  · rw [bytesNeeded, if_pos heq] at h
    rw [verdictOfFrame_of_length_eq h heq, verdictOfFrame_of_length_eq (by omega) (by rw [hcalled, hlength, heq]), hcalled,
      hget _ (by omega), hget _ (by omega), hget _ (by omega), payload_append hge, kindOf_congr (hget 2 (by omega)),
      valuesOf_congr fun i _ hi => hget i (by omega)]
  · rw [verdictOfFrame_of_length_ne hge heq, verdictOfFrame_of_length_ne (by omega) (by rwa [hcalled, hlength])]

/-- Bytes after a verdict do not change it (R137). -/
theorem parse_append {w : List Byte} (h : parse w ≠ .error .incompleteData) (more : List Byte) :
    parse (w ++ more) = parse w := by
  rcases not_incompleteData_cases h with ⟨b, rest, rfl, hb⟩ | ⟨len, id, rest, rfl, h4, h50⟩ | ⟨hbegins, hneeded⟩
  · rw [List.cons_append, parse_cons_of_ne_startMarker hb, parse_cons_of_ne_startMarker hb]
  · rw [List.cons_append, List.cons_append, List.cons_append, parse_of_unknown_id h4 h50, parse_of_unknown_id h4 h50]
  · have hbegins' : BeginsReply (w ++ more) := by
      obtain ⟨hlen, hstart, hid⟩ := hbegins
      refine ⟨by rw [List.length_append]; omega, ?_, ?_⟩
      · rwa [List.getD_append _ _ _ _ (by omega)]
      · rwa [List.getD_append _ _ _ _ (by omega)]
    rw [hbegins'.parse_eq, hbegins.parse_eq, verdictOfFrame_append hneeded]

/-- Fewer bytes than a frame has are not enough for any other verdict (R140). -/
theorem parse_take_of_parse_ok {f : List Byte} {reply : Reply} {n : Nat} (h : parse f = .ok (f.length, reply))
    (hn : n < f.length) : parse (f.take n) = .error .incompleteData := by
  by_contra hne
  have hsame := parse_append hne (f.drop n)
  rw [List.take_append_drop, h] at hsame
  obtain ⟨-, hle⟩ := consumed_bounds hsame.symm
  rw [List.length_take] at hle
  omega

/-! ## The parse of a built frame -/

/-- A frame and what follows it, taken apart behind the payload. -/
theorem wireFrame_append_eq (payload more : List Byte) : wireFrame payload ++ more =
    (startMarker :: BitVec.ofNat 8 payload.length :: payload) ++ (bytesBe2 (crc16 payload) ++ endMarker :: more) := by
  simp [wireFrame]

/-- A built frame is accepted when its id and mask call for the payload that it has (R121, R129). -/
theorem parse_wireFrame {payload more : List Byte} (hbegins : BeginsReply (wireFrame payload ++ more))
    (hcalled : calledLength (wireFrame payload ++ more) = payload.length) :
    parse (wireFrame payload ++ more) = .ok (payload.length + 5,
      ⟨kindOf (wireFrame payload ++ more), valuesOf (wireFrame payload ++ more)⟩) := by
  have hbounds := calledLength_bounds (wireFrame payload ++ more)
  have hlen : (wireFrame payload ++ more).length = payload.length + 5 + more.length := by
    rw [List.length_append, length_wireFrame]
  have hbehind : ∀ i, (wireFrame payload ++ more).getD (payload.length + 2 + i) 0#8 =
      (bytesBe2 (crc16 payload) ++ endMarker :: more).getD i 0#8 := fun i => by
    rw [wireFrame_append_eq, List.getD_append_right _ _ _ _ (by simp)]
    congr 1
    simp
  have hpayload : ((wireFrame payload ++ more).drop 2).take payload.length = payload := by
    rw [wireFrame_append_eq]
    exact List.take_left
  have hlength : payload.length = ((wireFrame payload ++ more).getD 1 0#8).toNat :=
    (Nat.mod_eq_of_lt (by omega : payload.length < 2 ^ 8)).symm
  rw [hbegins.parse_eq, verdictOfFrame_of_length_eq (by omega) (hcalled.trans hlength), hcalled, hpayload]
  have hchecksum : be2 ((wireFrame payload ++ more).getD (payload.length + 2) 0#8)
      ((wireFrame payload ++ more).getD (payload.length + 3) 0#8) = crc16 payload := by
    rw [hbehind 0, hbehind 1]
    exact be2_bytesBe2 _
  have hend : (wireFrame payload ++ more).getD (payload.length + 4) 0#8 = endMarker := hbehind 2
  rw [if_neg (not_not.mpr hchecksum), if_neg (not_not.mpr hend)]

/-! ## Reading back what stands on the wire -/

theorem getD_add_eq_getD_drop (w : List Byte) (p i : Nat) : w.getD (p + i) 0#8 = (w.drop p).getD i 0#8 := by
  simp [List.getD_eq_getElem?_getD]

theorem length_rawBytes (ty : WireType) (x : Int) : (rawBytes ty x).length = wireSize ty := by
  cases ty <;> rfl

theorem length_fieldsBytes (v : Values) (fs : List Field) : (fieldsBytes v fs).length = fieldsSize fs := by
  simp [fieldsBytes, fieldsSize, length_rawBytes]

/-- A raw value in the range of its wire type reads back (R65). -/
theorem rawAt_of_drop_eq {ty : WireType} {x : Int} {w rest : List Byte} {p : Nat} (hx : inRange ty x)
    (hw : w.drop p = rawBytes ty x ++ rest) : rawAt ty w p = x := by
  have hget : ∀ i, w.getD (p + i) 0#8 = (rawBytes ty x ++ rest).getD i 0#8 := fun i => by
    rw [getD_add_eq_getD_drop, hw]
  have hget0 : w.getD p 0#8 = (rawBytes ty x ++ rest).getD 0 0#8 := hget 0
  cases ty with
  | u8 =>
    obtain ⟨hlo, hhi⟩ := hx
    rw [rawAt, hget0]
    change ((BitVec.ofInt 8 x).toNat : Int) = x
    rw [BitVec.toNat_ofInt]
    omega
  | i16 =>
    obtain ⟨hlo, hhi⟩ := hx
    rw [rawAt, hget0, hget 1]
    change u2s16 (be2 ((BitVec.ofInt 16 x).extractLsb' 8 8) ((BitVec.ofInt 16 x).extractLsb' 0 8)) = x
    rw [be2_bytesBe2, u2s16, BitVec.toInt_ofInt]
    exact Int.bmod_eq_of_le (by omega) (by omega)
  | i32 =>
    rw [rawAt, hget0, hget 1, hget 2, hget 3]
    exact (congrArg u2s32 (be4_bytesBe4 (s2u32 x))).trans (u2s32_s2u32 x hx)
  | u32 =>
    obtain ⟨hlo, hhi⟩ := hx
    rw [rawAt, hget0, hget 1, hget 2, hget 3]
    refine (congrArg (fun y : Word => (y.toNat : Int)) (be4_bytesBe4 (BitVec.ofInt 32 x))).trans ?_
    rw [BitVec.toNat_ofInt]
    omega

/-- The fields of a record in range read back, each into its place. -/
theorem readInto_of_drop_eq {w rest : List Byte} {fs : List Field} {v r : Values} {p : Nat} (hv : fieldsInRange v)
    (hw : w.drop p = fieldsBytes v fs ++ rest) :
    readInto w fs r p = fs.foldl (fun r f => setField r f (getField v f)) r := by
  induction fs generalizing r p with
  | nil => rfl
  | cons f fs ih =>
    rw [fieldsBytes, List.flatMap_cons, List.append_assoc] at hw
    have hrest : w.drop (p + wireSize (fieldType f)) = fieldsBytes v fs ++ rest := by
      rw [← List.drop_drop, hw, ← length_rawBytes (fieldType f) (getField v f), List.drop_left]
      rfl
    rw [readInto, rawAt_of_drop_eq (hv f) hw, List.foldl_cons]
    exact ih hrest

/-- A record after some fields of another have been put into it. -/
theorem getField_foldl_setField (v r : Values) (fs : List Field) (f : Field) :
    getField (fs.foldl (fun r f => setField r f (getField v f)) r) f = if f ∈ fs then getField v f else getField r f := by
  induction fs generalizing r with
  | nil => rfl
  | cons g fs ih =>
    rw [List.foldl_cons, ih, getField_setField]
    by_cases hfg : f = g
    · simp [hfg]
    · simp [hfg]

/-- All fields of a record put into another one give that record. -/
theorem foldl_setField_allFields (v r : Values) :
    allFields.foldl (fun r f => setField r f (getField v f)) r = v :=
  values_ext _ _ fun f => by rw [getField_foldl_setField, if_pos (mem_allFields f)]

/-! ## The two reply frames -/

theorem length_getValuesPayload (v : Values) : (getValuesPayload v).length = 74 := by
  rw [getValuesPayload, List.length_cons, length_fieldsBytes, fieldsSize_allFields]

theorem length_selectivePayload (mask : Word) (v : Values) :
    (selectivePayload mask v).length = 5 + fieldsSize (selectedFields mask) := by
  rw [selectivePayload, List.length_cons, List.length_append, length_bytesBe4, length_fieldsBytes]
  omega

/-- A GetValues reply is accepted with its record (R130). -/
theorem parse_getValuesPayload {v : Values} (hv : fieldsInRange v) (more : List Byte) :
    parse (wireFrame (getValuesPayload v) ++ more) = .ok (79, ⟨.getValues, v⟩) := by
  have hvalues : valuesOf (wireFrame (getValuesPayload v) ++ more) = v := by
    refine Eq.trans (readInto_of_drop_eq (rest := bytesBe2 (crc16 (getValuesPayload v)) ++ endMarker :: more) hv ?_)
      (foldl_setField_allFields v zeroValues)
    rw [wireFrame_append_eq]
    rfl
  have hparse := parse_wireFrame (payload := getValuesPayload v) (more := more) (beginsReply_getValues _ _)
    (length_getValuesPayload v).symm
  rw [hvalues, length_getValuesPayload] at hparse
  exact hparse

/-- The mask of a selective reply is read from its payload. -/
theorem maskOf_selectivePayload (mask : Word) (v : Values) (more : List Byte) :
    maskOf (wireFrame (selectivePayload mask v) ++ more) = mask := be4_bytesBe4 mask

/-- A selective reply is accepted with the fields that its mask selects (R131). -/
theorem parse_selectivePayload {v : Values} (hv : fieldsInRange v) (mask : Word) (more : List Byte) :
    parse (wireFrame (selectivePayload mask v) ++ more) =
      .ok (10 + fieldsSize (selectedFields mask), ⟨.getValuesSelective, carried mask v⟩) := by
  have hmask := maskOf_selectivePayload mask v more
  have hvalues : valuesOf (wireFrame (selectivePayload mask v) ++ more) = carried mask v := by
    have hread : readInto (wireFrame (selectivePayload mask v) ++ more) (selectedFields mask) zeroValues 7 =
        carried mask v := by
      refine readInto_of_drop_eq (rest := bytesBe2 (crc16 (selectivePayload mask v)) ++ endMarker :: more) hv ?_
      rw [wireFrame_append_eq]
      rfl
    rw [← hread, valuesOf, hmask]
    rfl
  have hcalled : calledLength (wireFrame (selectivePayload mask v) ++ more) = (selectivePayload mask v).length := by
    rw [length_selectivePayload, calledLength, hmask]
    rfl
  have hparse := parse_wireFrame (beginsReply_selective _ _) hcalled
  rw [hvalues, length_selectivePayload] at hparse
  rw [show 10 + fieldsSize (selectedFields mask) = 5 + fieldsSize (selectedFields mask) + 5 by omega]
  exact hparse

/-- RX.GET_VALUES is FP.DEC of its window, whose id selects the same routine (R124). -/
theorem exec_fpDec_getValues (len : Byte) (rest : List Byte) (s : State) :
    exec (.fpDec (startMarker :: len :: idGetValues :: rest)) s = exec (.rxGetValues len rest) s := rfl

/-- RX.GET_VALUES_SELECTIVE is FP.DEC of its window (R124). -/
theorem exec_fpDec_selective (len : Byte) (rest : List Byte) (s : State) :
    exec (.fpDec (startMarker :: len :: idGetValuesSelective :: rest)) s = exec (.rxGetValuesSelective len rest) s := rfl

/-! ## What a success says -/

/-- A GetValues reply has its fields at the offsets of R76. -/
theorem fieldsSize_takeWhile_allFields (f : Field) :
    3 + fieldsSize (allFields.takeWhile fun g => decide (g ≠ f)) = 2 + fieldOffset f := by
  cases f <;> rfl

theorem inRange_zero (ty : WireType) : inRange ty 0 := by cases ty <;> exact ⟨by decide, by decide⟩

/-- What is read as a wire type is in its range (R65). -/
theorem inRange_rawAt (ty : WireType) (w : List Byte) (p : Nat) : inRange ty (rawAt ty w p) := by
  cases ty with
  | u8 => exact ⟨Int.natCast_nonneg _, Int.ofNat_lt.mpr (BitVec.isLt _)⟩
  | u32 => exact ⟨Int.natCast_nonneg _, Int.ofNat_lt.mpr (BitVec.isLt _)⟩
  | i16 => exact ⟨BitVec.le_toInt _, BitVec.toInt_lt⟩
  | i32 => exact ⟨BitVec.le_toInt _, BitVec.toInt_lt⟩

/-- A record that has been read keeps its fields in range. -/
theorem fieldsInRange_readInto (w : List Byte) (fs : List Field) {v : Values} (hv : fieldsInRange v) (p : Nat) :
    fieldsInRange (readInto w fs v p) := by
  induction fs generalizing v p with
  | nil => exact hv
  | cons f fs ih =>
    refine ih (fun g => ?_) _
    rw [getField_setField]
    split
    · rename_i hg
      subst hg
      exact inRange_rawAt _ w p
    · exact hv g

theorem fieldsInRange_valuesOf (w : List Byte) : fieldsInRange (valuesOf w) := by
  have hzero : fieldsInRange zeroValues := fun f => by
    rw [getField_zeroValues]
    exact inRange_zero _
  unfold valuesOf
  split
  · exact fieldsInRange_readInto w _ hzero _
  · exact fieldsInRange_readInto w _ hzero _

/-- A field of a selective reply is read behind the selected fields before it, or is 0 (R77). -/
theorem getField_readInto_selected (w : List Byte) (mask : Word) (f : Field) :
    getField (readInto w (selectedFields mask) zeroValues 7) f =
      if mask.getLsbD (fieldBit f) = true then
        rawAt (fieldType f) w (7 + fieldsSize ((selectedFields mask).takeWhile fun g => decide (g ≠ f)))
      else 0 := by
  rw [getField_readInto _ _ _ _ _ (selectedFields_nodup mask), getField_zeroValues]
  exact if_congr (mem_selectedFields mask f) rfl rfl

/-- A window on which the parse succeeds is the frame of its payload, and what follows it (R60). -/
theorem eq_wireFrame_of_parse_ok {w : List Byte} {n : Nat} {reply : Reply} (h : parse w = .ok (n, reply)) :
    w = wireFrame ((w.drop 2).take (calledLength w)) ++ w.drop (calledLength w + 5) ∧
      ((w.drop 2).take (calledLength w)).length = calledLength w := by
  obtain ⟨hstart, -, hn, hle, hlength, hchecksum, hend, -⟩ := parse_ok h
  have hplen : ((w.drop 2).take (calledLength w)).length = calledLength w := by
    rw [List.length_take, List.length_drop]
    omega
  have hlengthByte : BitVec.ofNat 8 (calledLength w) = w.getD 1 0#8 := by
    rw [← hlength, BitVec.ofNat_toNat, BitVec.setWidth_eq]
  have hbehind : w.drop (calledLength w + 2) = w.getD (calledLength w + 2) 0#8 :: w.getD (calledLength w + 3) 0#8 ::
      w.getD (calledLength w + 4) 0#8 :: w.drop (calledLength w + 5) := by
    rw [drop_eq_getD_cons (by omega), drop_eq_getD_cons (by omega), drop_eq_getD_cons (by omega)]
  refine ⟨?_, hplen⟩
  rw [wireFrame_append_eq, hplen, hlengthByte, ← hchecksum, bytesBe2_be2, ← hstart, ← hend]
  calc w = w.getD 0 0#8 :: w.getD 1 0#8 :: w.drop 2 := by
        rw [← drop_eq_getD_cons (by omega), ← drop_eq_getD_cons (by omega), List.drop_zero]
    _ = (w.getD 0 0#8 :: w.getD 1 0#8 :: (w.drop 2).take (calledLength w)) ++ w.drop (calledLength w + 2) := by
        rw [List.cons_append, List.cons_append, Nat.add_comm (calledLength w) 2, ← List.drop_drop, List.take_append_drop]
    _ = _ := congrArg _ hbehind

/-! ## A frame with one part changed (R140) -/

theorem getD_set_of_ne {w : List Byte} {i j : Nat} (h : i ≠ j) (b : Byte) : (w.set i b).getD j 0#8 = w.getD j 0#8 := by
  rw [List.getD_eq_getElem?_getD, List.getD_eq_getElem?_getD, List.getElem?_set_ne h]

theorem getD_set_self {w : List Byte} {i : Nat} (h : i < w.length) (b : Byte) : (w.set i b).getD i 0#8 = b := by
  rw [List.getD_eq_getElem?_getD, List.getElem?_set_self h, Option.getD_some]

/-- A change behind the payload leaves the payload. -/
theorem payload_set {w : List Byte} {i n : Nat} (h : n + 2 ≤ i) (b : Byte) :
    ((w.set i b).drop 2).take n = (w.drop 2).take n := by
  rw [List.drop_set, if_neg (by omega), List.take_set_of_le (by omega)]

/-- A frame with a change neither in START nor in the id still begins like a reply. -/
theorem BeginsReply.set {w : List Byte} (h : BeginsReply w) {i : Nat} (h0 : i ≠ 0) (h2 : i ≠ 2) (b : Byte) :
    BeginsReply (w.set i b) := by
  obtain ⟨hlen, hstart, hid⟩ := h
  exact ⟨by rwa [List.length_set], by rwa [getD_set_of_ne h0], by rwa [getD_set_of_ne h2]⟩

/-- A change of LENGTH or behind the mask leaves the length that the window calls for. -/
theorem calledLength_set {w : List Byte} {i : Nat} (h : i < 2 ∨ 7 ≤ i) (b : Byte) :
    calledLength (w.set i b) = calledLength w :=
  calledLength_congr fun _ h1 h2 => getD_set_of_ne (by omega) b

theorem beginsReply_of_parse_ok {w : List Byte} {n : Nat} {reply : Reply} (h : parse w = .ok (n, reply)) :
    BeginsReply w := by
  obtain ⟨hstart, hid, hn, hle, -⟩ := parse_ok h
  exact ⟨by omega, hstart, hid⟩

/-- Another LENGTH is not the length that the frame's id and mask call for. -/
theorem parse_set_length {f : List Byte} {reply : Reply} {b : Byte} (h : parse f = .ok (f.length, reply))
    (hb : b ≠ f.getD 1 0#8) : parse (f.set 1 b) = .error .invalidFrame := by
  obtain ⟨-, -, hlen, -, hlength, -⟩ := parse_ok h
  have hcalled : calledLength (f.set 1 b) = calledLength f := calledLength_set (by omega) b
  rw [((beginsReply_of_parse_ok h).set (by omega) (by omega) b).parse_eq, verdictOfFrame_of_length_ne]
  · rw [hcalled, List.length_set]
    omega
  · rw [hcalled, getD_set_self (by omega), ← hlength]
    exact fun he => hb (BitVec.eq_of_toNat_eq he.symm)

/-- Another END, behind the right CHECKSUM. -/
theorem parse_set_end {f : List Byte} {reply : Reply} {b : Byte} (h : parse f = .ok (f.length, reply))
    (hb : b ≠ endMarker) : parse (f.set (f.length - 1) b) = .error .invalidFrame := by
  obtain ⟨-, -, hlen, -, hlength, hchecksum, -⟩ := parse_ok h
  have hbounds := calledLength_bounds f
  have hbegins := (beginsReply_of_parse_ok h).set (i := f.length - 1) (by omega) (by omega) b
  have hcalled : calledLength (f.set (f.length - 1) b) = calledLength f := calledLength_set (by omega) b
  rw [hbegins.parse_eq, verdictOfFrame_of_length_eq, hcalled]
  · rw [payload_set (by omega), getD_set_of_ne (by omega), getD_set_of_ne (by omega), if_neg (not_not.mpr hchecksum),
      show f.length - 1 = calledLength f + 4 by omega, getD_set_self (by omega), if_pos hb]
  · rw [hcalled, List.length_set]
    omega
  · rw [hcalled, getD_set_of_ne (by omega), hlength]

/-- Another CHECKSUM than that of the payload: the mismatch names both (D8). -/
theorem parse_set_checksum {f : List Byte} {reply : Reply} {hi lo : Byte} (h : parse f = .ok (f.length, reply))
    (hne : be2 hi lo ≠ crc16 ((f.drop 2).take (f.length - 5))) :
    parse ((f.set (f.length - 3) hi).set (f.length - 2) lo) =
      .error (.checksumMismatch (be2 hi lo) (crc16 ((f.drop 2).take (f.length - 5)))) := by
  obtain ⟨-, -, hlen, -, hlength, -⟩ := parse_ok h
  have hbounds := calledLength_bounds f
  rw [show f.length - 5 = calledLength f by omega] at hne ⊢
  rw [show f.length - 3 = calledLength f + 2 by omega, show f.length - 2 = calledLength f + 3 by omega]
  have hbegins := ((beginsReply_of_parse_ok h).set (i := calledLength f + 2) (by omega) (by omega) hi).set
    (i := calledLength f + 3) (by omega) (by omega) lo
  have hcalled : calledLength ((f.set (calledLength f + 2) hi).set (calledLength f + 3) lo) = calledLength f :=
    (calledLength_set (by omega) lo).trans (calledLength_set (by omega) hi)
  rw [hbegins.parse_eq, verdictOfFrame_of_length_eq, hcalled]
  · rw [payload_set (by omega), payload_set (by omega), getD_set_of_ne (by omega), getD_set_self (by omega),
      getD_set_self (by rw [List.length_set]; omega), if_pos hne]
  · rw [hcalled, List.length_set, List.length_set]
    omega
  · rw [hcalled, getD_set_of_ne (by omega), getD_set_of_ne (by omega), hlength]

end Sys2Proof.Machine

namespace Sys2Proof.Proofs

open Sys2Proof Sys2Proof.Machine

/-- Settles O29: the parser's equation and the table have the same lines; the kind is what the id says. -/
theorem parseFollowsOrderOfVerdicts : Obligations.ParseFollowsOrderOfVerdicts := by
  intro w
  rw [parse_eq, verdictOfFrame]
  simp only [apply_ite (Except.map fun x : Nat × Reply => (x.1, x.2.kind))]
  rfl

/-- Settles O30: the window is the built frame of the record's payload. -/
theorem getValuesReplyIsDelivered : Obligations.GetValuesReplyIsDelivered := by
  intro v tail s hv
  have hwindow : startMarker :: 74#8 :: idGetValues ::
      (fieldsBytes v allFields ++ (bytesBe2 (crc16 (getValuesPayload v)) ++ 0x03#8 :: tail)) =
      wireFrame (getValuesPayload v) ++ tail := by
    rw [wireFrame_append_eq, length_getValuesPayload]
    simp [getValuesPayload]
  rw [← exec_fpDec_getValues, hwindow, exec_fpDec_of_ok (parse_getValuesPayload hv tail)]

/-- Settles O31: the window is the built frame of the mask and the selected fields. -/
theorem selectiveReplyIsDelivered : Obligations.SelectiveReplyIsDelivered := by
  intro mask v tail s hv
  have hwindow : startMarker :: BitVec.ofNat 8 (5 + fieldsSize (selectedFields mask)) :: idGetValuesSelective ::
      (bytesBe4 mask ++ (fieldsBytes v (selectedFields mask) ++
        (bytesBe2 (crc16 (selectivePayload mask v)) ++ 0x03#8 :: tail))) =
      wireFrame (selectivePayload mask v) ++ tail := by
    rw [wireFrame_append_eq, length_selectivePayload]
    simp [selectivePayload]
  rw [← exec_fpDec_selective, hwindow, exec_fpDec_of_ok (parse_selectivePayload hv mask tail)]

/-- Settles O32, by where each field of the record was read. -/
theorem deliveredFieldsStandAtTheirOffsets : Obligations.DeliveredFieldsStandAtTheirOffsets := by
  intro w consumed reply h f
  obtain ⟨-, -, -, -, -, -, -, rfl⟩ := parse_ok h
  simp only [kindOf, valuesOf]
  split
  · refine ⟨fun _ => ?_, nofun, nofun⟩
    rw [getField_readInto _ _ _ _ _ allFields_nodup, if_pos (mem_allFields f), fieldsSize_takeWhile_allFields]
  · refine ⟨nofun, fun _ hbit => ?_, fun _ hbit => ?_⟩
    · rw [getField_readInto_selected, if_pos hbit]
    · rw [getField_readInto_selected, if_neg (by simp [hbit])]

/-- Settles O33: a field is read as its wire type, or is 0. -/
theorem deliveredFieldsAreInRange : Obligations.DeliveredFieldsAreInRange := by
  intro w consumed reply h
  obtain ⟨-, -, -, -, -, -, -, rfl⟩ := parse_ok h
  exact fieldsInRange_valuesOf w

/-- Settles O34, by taking the accepted window apart. -/
theorem successMeansWholeFrame : Obligations.SuccessMeansWholeFrame := by
  intro w consumed reply h
  obtain ⟨-, hid, hn, hle, -⟩ := parse_ok h
  obtain ⟨hw, hplen⟩ := eq_wireFrame_of_parse_ok h
  have hbounds := calledLength_bounds w
  refine ⟨by omega, by omega, _, _, hw, by rw [hplen, hn], ?_⟩
  have hhead : ((w.drop 2).take (calledLength w)).head? = some (w.getD 2 0#8) := by
    rw [List.head?_take, if_neg (by omega), drop_eq_getD_cons (by omega), List.head?_cons]
  rw [hhead]
  exact hid.imp (congrArg some) (congrArg some)

/-- Settles O35: a verdict depends on the bytes that it needs. -/
theorem laterBytesDoNotChangeVerdict : Obligations.LaterBytesDoNotChangeVerdict :=
  fun _ more h => parse_append h more

/-- Settles O36: any other verdict on fewer bytes would be the frame's own, which consumes more than they are. -/
theorem properPrefixIsIncomplete : Obligations.ProperPrefixIsIncomplete :=
  fun _ _ _ h hn => parse_take_of_parse_ok h hn

/-- Settles O37: START falls at step 1; for the other bytes the window still begins like a reply and calls for the same
payload length. -/
theorem mutatedFrameIsRejected : Obligations.MutatedFrameIsRejected := by
  intro f reply h
  refine ⟨fun b hb => ?_, fun b hb => parse_set_length h hb, fun b hb => parse_set_end h hb,
    fun hi lo hne => parse_set_checksum h hne⟩
  match f with
  | [] => simp [parse_nil] at h
  | _ :: rest => exact parse_cons_of_ne_startMarker hb rest

/-- Settles O28, by the dispatch of step 3. -/
theorem commandIdSelectsRoutine : Obligations.CommandIdSelectsRoutine :=
  ⟨fun len _ rest s h4 h50 => exec_fpDec_of_error (parse_of_unknown_id h4 h50 len rest) s,
    fun len rest s => ⟨exec_fpDec_getValues len rest s, exec_fpDec_selective len rest s⟩⟩

end Sys2Proof.Proofs
end

section
/-! PROOFS. The stream buffer: the bytes and cursors that SB.FEED leaves, the scan of SB.PULL at a phantom start and behind
junk, and sequences of feeds and pulls. -/

namespace Sys2Proof.Machine

/-! ## SB.FEED -/

/-- With a sufficient free tail BUF takes the data at WR and nothing else (R160). -/
theorem readCell_feed_of_room {data : List Byte} {s t : State} {k : Nat} (h : feed data s = .ok (t, k))
    (hroom : data.length ≤ s.cfg.cap - s.wr) (a : Nat) : readCell t.buf a =
      if s.wr ≤ a ∧ a < s.wr + data.length then data[a - s.wr]? else readCell s.buf a := by
  obtain ⟨s', hk, rfl, ⟨-, rfl⟩ | ⟨u, hno, -⟩⟩ := feed_cases h
  · rw [readCell_writeCells, List.take_of_length_le (by omega)]
  · omega

/-- Without it BUF holds the unread bytes from 0, and the copy above them, or at 0 after a discard (R161, R163, R164). -/
theorem readCell_feed_of_no_room {data : List Byte} {s t : State} {k base : Nat} (h : feed data s = .ok (t, k))
    (hroom : s.cfg.cap - s.wr < data.length) (hbase : base = if s.wr - s.rd = s.cfg.cap then 0 else s.wr - s.rd) (a : Nat) :
    readCell t.buf a = if base ≤ a ∧ a < base + min data.length (s.cfg.cap - base) then data[a - base]?
      else if a < s.wr - s.rd then readCell s.buf (s.rd + a) else readCell s.buf a := by
  obtain ⟨s', hk, rfl, ⟨hyes, -⟩ | ⟨u, -, hu, hcase⟩⟩ := feed_cases h
  · omega
  · obtain ⟨hlen, hcells⟩ := (readCells_eq_some _ _ _ _).mp hu
    have hs' : s'.buf = writeCells s.buf 0 u ∧ s'.wr = base ∧ s'.cfg = s.cfg := by
      rcases hcase with ⟨hnot, rfl⟩ | ⟨hfull, rfl⟩
      · exact ⟨rfl, by rw [hbase, if_neg hnot], rfl⟩
      · exact ⟨rfl, by rw [hbase, if_pos hfull], rfl⟩
    obtain ⟨hbuf, hwr, hcfg⟩ := hs'
    rw [hwr, hcfg] at hk
    subst hk
    have htake : (data.take (min data.length (s.cfg.cap - base))).length = min data.length (s.cfg.cap - base) := by
      rw [List.length_take]
      omega
    simp only [hbuf, hwr, readCell_writeCells, htake, Nat.zero_le, true_and, Nat.zero_add, hlen, Nat.sub_zero]
    refine if_ctx_congr Iff.rfl (fun hin => ?_) fun _ => if_ctx_congr Iff.rfl (fun hlt => (hcells a hlt).symm) fun _ => rfl
    rw [List.getElem?_take, if_pos (by omega)]

/-- A feed copies no more than it is given. -/
theorem absFeed_count_le (cap : Nat) (u data : List Byte) : (absFeed cap u data).2 ≤ data.length := Nat.min_le_left _ _

/-- A feed of at least one byte finds room for one (R164). -/
theorem absFeed_count_pos {cap : Nat} {u data : List Byte} (hcap : 1 ≤ cap) (hu : u.length ≤ cap) (hdata : data ≠ []) :
    1 ≤ (absFeed cap u data).2 := by
  have hlen := List.length_pos_iff.mpr hdata
  by_cases hfull : u.length = cap
  · rw [absFeed_of_full hfull hlen]
    exact le_min hlen hcap
  · rw [absFeed_of_not_full (by omega)]
    exact le_min hlen (by omega)

/-- A feed that fits above the unread bytes is stored whole (R170). -/
theorem absFeed_of_fits {cap : Nat} {u data : List Byte} (h : u.length + data.length ≤ cap) :
    absFeed cap u data = (u ++ data, data.length) := by
  have hmin : min data.length (cap - u.length) = data.length := by omega
  rw [absFeed_of_not_full (by omega), hmin, List.take_length]

/-- SB.FEED: the response, the contents and the cursors after it. -/
theorem Represents.exec_sbFeed {s : State} {c : Config} {acc : Half} {u : List Byte} (h : Represents s c acc u)
    (data : List Byte) : ∃ t, Machine.exec (.sbFeed data) s = .next t ∧ Represents t c acc (absFeed c.cap u data).1 ∧
      t.inputs = s.inputs ∧ t.responses = s.responses ++ [.copied (absFeed c.cap u data).2] ∧
      (data.length ≤ c.cap - s.wr → t.rd = s.rd ∧ t.wr = s.wr + data.length) ∧
      (c.cap - s.wr < data.length → t.rd = 0 ∧ t.wr = (absFeed c.cap u data).1.length) := by
  obtain ⟨t, hf, ht, htail, hno⟩ := h.feed data
  obtain ⟨-, -, hinputs, hresp⟩ := feed_frame hf
  refine ⟨_, exec_sbFeed_of_feed hf, ht.respond _, hinputs, congrArg (· ++ _) hresp, htail, fun hlt => ?_⟩
  have hlen := ht.length_unread
  rw [hno hlt, Nat.sub_zero] at hlen
  exact ⟨hno hlt, hlen.symm⟩

/-! ## SB.PULL -/

/-- A pull without a reply would give none again. -/
theorem absPull_absPull_of_none {u : List Byte} (h : (absPull u).2 = none) :
    absPull (absPull u).1 = ((absPull u).1, none) := by
  induction u with
  | nil => rfl
  | cons b rest ih =>
    by_cases hrej : rejected (b :: rest)
    · rw [absPull_of_rejected hrej, List.drop_one, List.tail_cons] at h ⊢
      exact ih h
    · rcases (not_rejected_iff _).mp hrej with hp | ⟨n, reply, hp⟩
      · rw [absPull_of_incompleteData hp]
        exact absPull_of_incompleteData hp
      · rw [absPull_of_ok hp] at h
        cases h

/-- A pull removes a byte unless the parse of all unread bytes is IncompleteData (R166). -/
theorem absPull_length_lt {u : List Byte} (h : parse u ≠ .error .incompleteData) : (absPull u).1.length < u.length := by
  have hpos : 0 < u.length := List.length_pos_iff.mpr fun hnil => h (hnil ▸ parse_nil)
  by_cases hrej : rejected u
  · have hle := absPull_length_le (u.drop 1)
    rw [List.length_drop] at hle
    rw [absPull_of_rejected hrej]
    omega
  · rcases (not_rejected_iff _).mp hrej with hp | ⟨n, reply, hp⟩
    · exact absurd hp h
    · obtain ⟨hn, -⟩ := consumed_bounds hp
      rw [absPull_of_ok hp, List.length_drop]
      omega

/-- SB.PULL that finds nothing changes nothing (R166). -/
theorem exec_sbPull_of_absPull_none {u : List Byte} {s : State} (hinv : s.Inv) (hu : unread s = some u)
    (h : absPull u = (u, none)) :
    exec .sbPull s = .next { s with responses := s.responses ++ [.pulled none] } :=
  exec_sbPull_of_skip (j := 0) (n := 0) hinv hu nofun h (Nat.zero_le _)

/-- SB.PULL raises RD unless the parse of all unread bytes is IncompleteData (R166). -/
theorem exec_sbPull_raises {u : List Byte} {s : State} (hinv : s.Inv) (hu : unread s = some u)
    (h : parse u ≠ .error .incompleteData) : ∃ t, exec .sbPull s = .next t ∧ s.rd < t.rd := by
  have hlt := absPull_length_lt h
  refine ⟨_, exec_sbPull_of_pull (pull_eq hinv hu), ?_⟩
  show s.rd < s.rd + (u.length - (absPull u).1.length)
  omega

/-- A phantom start stalls SB.PULL while bytes are missing for its verdict, and not after (R242). -/
theorem BeginsReply.exec_sbPull {w : List Byte} {s : State} {n : Nat} (h : BeginsReply w) (hinv : s.Inv)
    (hu : unread s = some w) (hn : bytesNeeded w = n) :
    (w.length < n → exec .sbPull s = .next { s with responses := s.responses ++ [.pulled none] }) ∧
      (n ≤ w.length → ∃ t, exec .sbPull s = .next t ∧ s.rd < t.rd) := by
  subst hn
  refine ⟨fun hlt => ?_, fun hle => ?_⟩
  · exact exec_sbPull_of_absPull_none hinv hu (absPull_of_incompleteData (h.incompleteData_iff.mpr hlt))
  · exact exec_sbPull_raises hinv hu (mt h.incompleteData_iff.mp (not_lt.mpr hle))

/-- What a window with id 4 needs: 76 bytes, or the 79 of a frame if LENGTH is 74. -/
theorem bytesNeeded_getValues (len : Byte) (rest : List Byte) :
    bytesNeeded (startMarker :: len :: idGetValues :: rest) = if len = 74#8 then 79 else 76 := by
  have hiff : 74 = len.toNat ↔ len = 74#8 := by
    rw [BitVec.toNat_eq, eq_comm]
    rfl
  exact if_congr hiff rfl rfl

/-- What a window with id 50 and its mask needs: 7 bytes and the selected fields, or the whole frame if LENGTH fits them. -/
theorem bytesNeeded_selective (len : Byte) (mask : Word) (tail : List Byte) :
    bytesNeeded (startMarker :: len :: idGetValuesSelective :: (bytesBe4 mask ++ tail)) =
      if len.toNat = 5 + fieldsSize (selectedFields mask) then 10 + fieldsSize (selectedFields mask)
      else 7 + fieldsSize (selectedFields mask) := by
  have hmask : maskOf (startMarker :: len :: idGetValuesSelective :: (bytesBe4 mask ++ tail)) = mask := be4_bytesBe4 mask
  have hcalled : calledLength (startMarker :: len :: idGetValuesSelective :: (bytesBe4 mask ++ tail)) =
      5 + fieldsSize (selectedFields mask) := by
    rw [calledLength, hmask]
    rfl
  rw [bytesNeeded, hcalled]
  exact if_congr eq_comm (by omega) (by omega)

/-- No reply has its verdict before 7 bytes. -/
theorem seven_le_bytesNeeded (w : List Byte) : 7 ≤ bytesNeeded w := by
  have hbounds := calledLength_bounds w
  rw [bytesNeeded]
  split_ifs <;> omega

/-! ## Sequences of feeds and pulls -/

/-- A chunk that fits is stored whole, and the pull scans the unread bytes with it. -/
theorem Represents.feedThenPull {s : State} {c : Config} {acc : Half} {u chunk : List Byte} (h : Represents s c acc u)
    (hfit : u.length + chunk.length ≤ c.cap) :
    ∃ t, execAll (feedThenPull chunk) s = .next t ∧ Represents t c acc (absPull (u ++ chunk)).1 ∧
      t.responses = s.responses ++ [.copied chunk.length, .pulled (absPull (u ++ chunk)).2] := by
  obtain ⟨s1, hfeed, h1, -, hresp1, -⟩ := h.exec_sbFeed chunk
  rw [absFeed_of_fits hfit] at h1 hresp1
  obtain ⟨t, hpull, ht, hresp⟩ := h1.exec_next (i := .sbPull) rfl
  refine ⟨t, ?_, ht, ?_⟩
  · rw [Machine.feedThenPull, execAll_cons_of_next hfeed, execAll_cons_of_next hpull, execAll]
  · rw [hresp, hresp1, List.append_assoc]
    rfl

/-- A frame that is fed in chunks, of which `u` has been stored: no reply before its last chunk, and then its reply (R172). -/
theorem Represents.feed_chunks {chunks : List (List Byte)} {last f u : List Byte} {reply : Reply} {s : State} {c : Config}
    {acc : Half} (h : Represents s c acc u) (hf : parse f = .ok (f.length, reply)) (hcap : f.length ≤ c.cap)
    (hsplit : u ++ chunks.flatten ++ last = f) (hlast : last ≠ []) :
    ∃ t, execAll (chunks.flatMap Machine.feedThenPull ++ Machine.feedThenPull last) s = .next t ∧ Represents t c acc [] ∧
      t.responses = s.responses ++ (chunks.flatMap fun c => [.copied c.length, .pulled none]) ++
        [.copied last.length, .pulled (some reply)] := by
  induction chunks generalizing u s with
  | nil =>
    obtain rfl : u ++ last = f := by simpa using hsplit
    have habs : absPull (u ++ last) = ([], some reply) := by rw [absPull_of_ok hf, List.drop_length]
    obtain ⟨t, hexec, ht, hresp⟩ := h.feedThenPull (chunk := last) (by rw [← List.length_append]; exact hcap)
    rw [habs] at ht hresp
    exact ⟨t, hexec, ht, by simpa using hresp⟩
  | cons chunk chunks ih =>
    have hsplit' : u ++ chunk ++ chunks.flatten ++ last = f := by simpa using hsplit
    have hlen := congrArg List.length hsplit'
    have hpos := List.length_pos_iff.mpr hlast
    simp only [List.length_append] at hlen
    have hincomplete : parse (u ++ chunk) = .error .incompleteData := by
      have htake := parse_take_of_parse_ok (n := (u ++ chunk).length) hf (by rw [List.length_append]; omega)
      rwa [← hsplit', List.append_assoc (u ++ chunk), List.take_left] at htake
    obtain ⟨s1, hexec1, h1, hresp1⟩ := h.feedThenPull (chunk := chunk) (by omega)
    rw [absPull_of_incompleteData hincomplete] at h1 hresp1
    obtain ⟨t, hexec, ht, hresp⟩ := ih h1 hsplit'
    refine ⟨t, ?_, ht, ?_⟩
    · rw [List.flatMap_cons, List.append_assoc, execAll_append_of_next hexec1, hexec]
    · rw [hresp, hresp1]
      simp

/-- The loop of SB.DRAIN ends where a pull gives none (R88). -/
theorem Represents.drainLoop {fuel : Nat} {s : State} {c : Config} {acc : Half} {u : List Byte} (h : Represents s c acc u)
    (hfuel : u.length < fuel) :
    ∃ t u', drainLoop fuel s = .next t ∧ Represents t c acc u' ∧ absPull u' = (u', none) := by
  induction fuel generalizing s u with
  | zero => exact absurd hfuel (Nat.not_lt_zero _)
  | succ fuel ih =>
    obtain ⟨s1, hexec, h1, hresp⟩ := h.exec_next (i := .sbPull) rfl
    have hlast : s1.responses.getLast? = some (.pulled (absPull u).2) := by rw [hresp, List.getLast?_concat]
    cases hpull : (absPull u).2 with
    | none =>
      rw [hpull] at hlast
      refine ⟨s1, _, ?_, h1, absPull_absPull_of_none hpull⟩
      simp only [Machine.drainLoop, hexec, lastPullWasNone, hlast, decide_true, if_true]
    | some reply =>
      rw [hpull] at hlast
      have hlt : (absPull u).1.length < u.length := absPull_length_lt fun hp => by
        rw [absPull_of_incompleteData hp] at hpull
        cases hpull
      obtain ⟨t, u', hdrain, ht, hu'⟩ := ih h1 (by omega)
      refine ⟨t, u', ?_, ht, hu'⟩
      simpa only [Machine.drainLoop, hexec, lastPullWasNone, hlast, Option.some.injEq, Response.pulled.injEq, reduceCtorEq,
        decide_false, Bool.false_eq_true, if_false] using hdrain

end Sys2Proof.Machine

namespace Sys2Proof.Proofs

open Sys2Proof Sys2Proof.Machine

/-- Settles O38, by the abstract feed and its cursors. -/
theorem sbFeedStoresAndMovesCursors : Obligations.SbFeedStoresAndMovesCursors := by
  intro data u s hinv hu
  have hs : Represents s s.cfg s.crcAcc u := ⟨hinv, rfl, rfl, hu⟩
  obtain ⟨t, hexec, ht, hinputs, hresp, htail, hno⟩ := hs.exec_sbFeed data
  exact ⟨t, hexec, hresp, ht.unread, ht.crcAcc, ht.cfg, hinputs, htail, hno⟩

/-- Settles O39, by the bytes of BUF after a feed with and without a sufficient free tail. -/
theorem sbFeedWritesOnlyItsRegion : Obligations.SbFeedWritesOnlyItsRegion := by
  intro data s t hexec
  obtain ⟨s', k, hf, rfl⟩ := execSbFeed_next hexec
  obtain ⟨hacc, hcfg, hinputs, -⟩ := feed_frame hf
  have hroom := readCell_feed_of_room hf
  have hno := fun h base => readCell_feed_of_no_room (base := base) hf h
  exact ⟨hacc, hcfg, hinputs, hroom, hno⟩

/-- Settles O40: after a compaction, and a discard if BUF is full, there is room for a byte. -/
theorem sbFeedAlwaysProgresses : Obligations.SbFeedAlwaysProgresses := by
  intro data s hinv hdata
  obtain ⟨u, hs⟩ := exists_represents hinv
  obtain ⟨t, hexec, -, -, hresp, -⟩ := hs.exec_sbFeed data
  obtain ⟨⟨hcap, -⟩, -⟩ := hinv
  exact ⟨t, _, hexec, hresp, absFeed_count_pos hcap hs.length_le_cap hdata, absFeed_count_le _ _ _⟩

/-- Settles O41: the unread bytes fill BUF, so the free tail is empty and the abstract feed starts from nothing. -/
theorem fullBufferIsDiscarded : Obligations.FullBufferIsDiscarded := by
  intro data s hinv hfull hdata
  obtain ⟨u, hs⟩ := exists_represents hinv
  have hlen := List.length_pos_iff.mpr hdata
  have habs := absFeed_of_full (hs.length_unread.trans hfull) hlen
  have htake : data.take (min data.length s.cfg.cap) = data.take s.cfg.cap := by
    rw [List.take_eq_take_iff]
    omega
  obtain ⟨t, hexec, ht, -, hresp, -, hno⟩ := hs.exec_sbFeed data
  obtain ⟨hrd, hwr⟩ := hno (by omega)
  rw [habs] at ht hresp hwr
  refine ⟨t, hexec, hrd, by rw [hwr, List.length_take]; omega, ht.unread.trans (congrArg some htake), hresp⟩

/-- Settles O42: no byte needs room, and the copy is empty. -/
theorem emptyFeedChangesNothing : Obligations.EmptyFeedChangesNothing := by
  intro s hwr
  have hfeed : feed [] s = .ok (s, 0) := by
    have hcopy := copyIn_eq (data := []) hwr
    rw [List.length_nil, Nat.zero_min] at hcopy
    exact hcopy
  exact exec_sbFeed_of_feed hfeed

/-- Settles O44, by what the scan raises. -/
theorem sbPullOnlyRaisesReadCursor : Obligations.SbPullOnlyRaisesReadCursor := by
  intro s t hexec
  obtain ⟨s', r, hp, rfl⟩ := execSbPull_next hexec
  obtain ⟨n, rfl⟩ := pull_frame hp
  exact ⟨Nat.le_add_right _ _, r, rfl⟩

/-- Settles O46: the scan skips the junk, and the bytes behind the frame do not change its verdict. -/
theorem pullResynchronizesOnNextFrame : Obligations.PullResynchronizesOnNextFrame := by
  intro junk f tail reply s hinv hu hf hjunk
  have hskip : ∀ i, i < junk.length → rejected ((junk ++ f ++ tail).drop i) := by
    rcases hjunk with hrej | hno
    · exact hrej
    · intro i hi
      have hne : junk[i] ≠ 0x02#8 := fun he => hno (he ▸ List.getElem_mem hi)
      rw [List.append_assoc, List.drop_append_of_le_length hi.le, List.drop_eq_getElem_cons hi]
      exact ⟨_, parse_cons_of_ne_startMarker hne _, nofun⟩
  have hparse : parse (f ++ tail) = .ok (f.length, reply) := by
    rw [parse_append (by rw [hf]; nofun), hf]
  refine exec_sbPull_of_skip hinv hu hskip ?_ (by simp)
  rw [List.append_assoc, List.drop_left]
  exact absPull_of_ok hparse

/-- Settles O47, by induction over the chunks. -/
theorem chunkedFrameYieldsExactlyOneReply : Obligations.ChunkedFrameYieldsExactlyOneReply := by
  intro chunks last f reply s hinv hu hf hcap hsplit hlast
  have hs : Represents s s.cfg s.crcAcc [] := ⟨hinv, rfl, rfl, hu⟩
  obtain ⟨t, hexec, ht, hresp⟩ := hs.feed_chunks hf hcap hsplit hlast
  exact ⟨t, hexec, ht.unread, hresp⟩

/-- Settles O48, by the bytes that each phantom start needs for its verdict. -/
theorem phantomStartStallsPull : Obligations.PhantomStartStallsPull := by
  intro len rest s hinv
  refine ⟨fun hu => ?_, fun hu => ⟨fun hlt => ?_, fun mask tail n hrest hn => ?_⟩⟩
  · have h := (beginsReply_getValues len rest).exec_sbPull hinv hu (bytesNeeded_getValues len rest)
    rwa [List.length_cons, List.length_cons, List.length_cons, Nat.add_comm rest.length 3] at h
  · have hneeded := seven_le_bytesNeeded (startMarker :: len :: idGetValuesSelective :: rest)
    refine ((beginsReply_selective len rest).exec_sbPull hinv hu rfl).1 ?_
    simp only [List.length_cons]
    omega
  · subst hrest hn
    refine ⟨fieldsSize_selected_le mask, ?_⟩
    have h := (beginsReply_selective len _).exec_sbPull hinv hu (bytesNeeded_selective len mask tail)
    rwa [show (startMarker :: len :: idGetValuesSelective :: (bytesBe4 mask ++ tail)).length = 7 + tail.length by
      simp; omega] at h

/-- Settles O49: the drain ends where a pull gives none, and there a further pull changes nothing. -/
theorem drainLeavesNothingDecodable : Obligations.DrainLeavesNothingDecodable := by
  intro s hinv
  obtain ⟨u, hs⟩ := exists_represents hinv
  obtain ⟨t, u', hdrain, ht, hnone⟩ := hs.drainLoop (fuel := s.wr - s.rd + 1) (by rw [hs.length_unread]; omega)
  exact ⟨t, hdrain, ht.inv, exec_sbPull_of_absPull_none ht.inv ht.unread hnone⟩

end Sys2Proof.Proofs
end

section
/-! PROOFS. The frame builder: a build at every depth, the length of a payload, and what the parser says of a built frame; and
the host's scaling. -/

namespace Sys2Proof.Machine

/-! ## Descriptors and payloads -/

/-- FB.ENC of a descriptor that is deeper than the port admits is refused (R84). -/
theorem exec_fbEnc_of_depth_gt {cmd : Cmd} {s : State} (h : s.cfg.maxNest.val < cmd.depth) (dcap : Nat) :
    exec (.fbEnc cmd dcap) s = .refused .nestedDeeperThanMaxNest :=
  if_neg (mt (nestsWithin_iff cmd _).mp (not_le.mpr h))

/-- TX.FORWARD_CAN is FB.ENC of its command (R186). -/
theorem exec_fbEnc_forwardCan (target : Byte) (inner : Cmd) (dcap : Nat) (s : State) :
    exec (.fbEnc (.forwardCan target inner) dcap) s = exec (.txForwardCan target inner dcap) s := rfl

/-- FB.ENC's answer for a descriptor that the port admits (R180, R181, R188). -/
theorem exec_fbEnc_eq {cmd : Cmd} {s : State} (h : cmd.depth ≤ s.cfg.maxNest.val) (dcap : Nat) :
    exec (.fbEnc cmd dcap) s = .next { s with responses := s.responses ++
      [if dcap < (cmdPayload cmd).length + 5 then .error .bufferTooSmall else .frame (wireFrame (cmdPayload cmd))] } := by
  rw [exec_fbEnc_of_depth_le h, answer_buildResponse (appends_pack cmd)]

/-- A level of ForwardCan adds two bytes to a payload of one to five (R70). -/
theorem length_cmdPayload_bounds (cmd : Cmd) :
    1 ≤ (cmdPayload cmd).length ∧ (cmdPayload cmd).length ≤ 5 + 2 * cmd.depth := by
  rw [payloadLength_eq]
  induction cmd with
  | forwardCan target inner ih =>
    rw [payloadLength, Cmd.depth]
    omega
  | _ => simp [payloadLength, Cmd.depth]

/-! ## The parser on built frames (R190, R243) -/

/-- A frame whose id is no reply's is an unknown packet, whatever its payload is. -/
theorem parse_wireFrame_of_unknown_id {id : Byte} (h4 : id ≠ idGetValues) (h50 : id ≠ idGetValuesSelective)
    (rest more : List Byte) : parse (wireFrame (id :: rest) ++ more) = .error (.unknownPacket id) :=
  parse_of_unknown_id h4 h50 _ _

/-- A GetValues command lacks the bytes of a GetValues reply, and its LENGTH is not that reply's. -/
theorem parse_getValues_command (more : List Byte) : parse (wireFrame (cmdPayload .getValues) ++ more) =
    if more.length < 70 then .error .incompleteData else .error .invalidFrame := by
  have hbegins : BeginsReply (wireFrame (cmdPayload .getValues) ++ more) := beginsReply_getValues _ _
  have hneeded : bytesNeeded (wireFrame (cmdPayload .getValues) ++ more) = 76 := bytesNeeded_getValues 1#8 _
  have hlen : (wireFrame (cmdPayload .getValues) ++ more).length = 6 + more.length := by
    rw [List.length_append, length_wireFrame]
    rfl
  split
  · exact hbegins.incompleteData_iff.mpr (by omega)
  · have hcalled : calledLength (wireFrame (cmdPayload .getValues) ++ more) = 74 := rfl
    rw [hbegins.parse_eq, verdictOfFrame_of_length_ne (by omega)]
    rw [hcalled]
    show (74 : Nat) ≠ 1
    decide

/-- A mask that selects no bytes selects no field. -/
theorem selectedFields_eq_nil_iff (mask : Word) : selectedFields mask = [] ↔ fieldsSize (selectedFields mask) = 0 := by
  cases selectedFields mask with
  | nil => simp
  | cons f fs =>
    have hpos := wireSize_pos (fieldType f)
    simp only [reduceCtorEq, fieldsSize_cons, false_iff]
    omega

/-- A GetValuesSelective command is the reply of its mask without fields: accepted if the mask selects none; otherwise its
LENGTH is wrong, once the bytes behind it make up for the fields. -/
theorem parse_getValuesSelective_command (mask : Word) : parse (wireFrame (cmdPayload (.getValuesSelective mask))) =
    if selectedFields mask = [] then .ok (10, ⟨.getValuesSelective, zeroValues⟩)
    else if fieldsSize (selectedFields mask) ≤ 3 then .error .invalidFrame else .error .incompleteData := by
  have hbegins : BeginsReply (wireFrame (cmdPayload (.getValuesSelective mask))) := beginsReply_selective _ _
  have hmask : maskOf (wireFrame (cmdPayload (.getValuesSelective mask))) = mask := be4_bytesBe4 mask
  have hcalled : calledLength (wireFrame (cmdPayload (.getValuesSelective mask))) = 5 + fieldsSize (selectedFields mask) := by
    rw [calledLength, hmask]
    rfl
  have hlen : (wireFrame (cmdPayload (.getValuesSelective mask))).length = 10 := by
    rw [length_wireFrame]
    rfl
  have hlength : ((wireFrame (cmdPayload (.getValuesSelective mask))).getD 1 0#8).toNat = 5 := rfl
  by_cases hnone : selectedFields mask = []
  · have hzero : fieldsInRange zeroValues := fun f => by
      rw [getField_zeroValues]
      exact inRange_zero _
    have hparse := parse_selectivePayload hzero mask []
    rw [selectivePayload, carried, hnone, List.append_nil] at hparse
    rw [if_pos hnone]
    exact hparse
  · have hpos := mt (selectedFields_eq_nil_iff mask).mpr hnone
    rw [if_neg hnone]
    split
    · rw [hbegins.parse_eq, verdictOfFrame_of_length_ne]
      · omega
      · rw [hcalled, hlength]
        omega
    · refine hbegins.incompleteData_iff.mpr ?_
      rw [bytesNeeded, hcalled, hlength, hlen, if_neg (by omega)]
      omega

/-! ## The host's scaling (R79, R191) -/

/-- Truncation toward zero loses less than 1. -/
theorem abs_sub_truncTowardZero_lt_one (x : ℚ) : |x - truncTowardZero x| < 1 := by
  unfold truncTowardZero
  split
  · rw [abs_lt]
    exact ⟨by linarith [Int.floor_le x], by linarith [Int.lt_floor_add_one x]⟩
  · rw [abs_lt]
    exact ⟨by linarith [Int.ceil_lt_add_one x], by linarith [Int.le_ceil x]⟩

end Sys2Proof.Machine

namespace Sys2Proof.Proofs

open Sys2Proof Sys2Proof.Machine

/-- Settles O50, by what the packer of a command appends. -/
theorem fbEncBuildsWholeFrameOrNothing : Obligations.FbEncBuildsWholeFrameOrNothing :=
  fun _ dcap _ hdepth => exec_fbEnc_eq hdepth dcap

/-- Settles O51: TX.FORWARD_CAN is FB.ENC of a command with one level more. -/
theorem deeperDescriptorIsRefused : Obligations.DeeperDescriptorIsRefused :=
  fun _ inner target dcap _ => ⟨fun hdepth => exec_fbEnc_of_depth_gt hdepth dcap,
    fun hdepth => exec_fbEnc_of_depth_gt (cmd := .forwardCan target inner) hdepth dcap⟩

/-- Settles O52: 125 levels around five bytes are 255. -/
theorem payloadLengthFitsLengthByte : Obligations.PayloadLengthFitsLengthByte := by
  intro cmd hdepth
  have hbounds := length_cmdPayload_bounds cmd
  exact ⟨by omega, by omega, Nat.mod_eq_of_lt (by omega : (cmdPayload cmd).length < 2 ^ 8)⟩

/-- Settles O57: the payload of a ForwardCan command is id, target and the inner payload. -/
theorem txForwardCanFrame : Obligations.TxForwardCanFrame := by
  intro target inner dcap s hdepth
  have h := exec_fbEnc_eq (cmd := .forwardCan target inner) (s := s) hdepth dcap
  rw [exec_fbEnc_forwardCan, show (cmdPayload (.forwardCan target inner)).length + 5 = 7 + (cmdPayload inner).length by
    simp [cmdPayload]; omega] at h
  exact ⟨h, exec_fbEnc_forwardCan target inner dcap s⟩

/-- Settles O59, by the ids of the commands. -/
theorem parserVerdictOnBuiltFrames : Obligations.ParserVerdictOnBuiltFrames :=
  ⟨fun _ more => ⟨parse_wireFrame_of_unknown_id (by decide) (by decide) _ more,
      parse_wireFrame_of_unknown_id (by decide) (by decide) _ more,
      parse_wireFrame_of_unknown_id (by decide) (by decide) _ more⟩,
    fun _ _ more => parse_wireFrame_of_unknown_id (by decide) (by decide) _ more,
    parse_getValues_command, parse_getValuesSelective_command⟩

/-- Settles O60: the truncation loses less than 1, which the division brings below one step. -/
theorem hostScalingLosesLessThanOneStep : Obligations.HostScalingLosesLessThanOneStep := by
  intro x scale hscale
  have hpos : (0 : ℚ) < scale := Nat.cast_pos.mpr hscale
  have hlost := abs_sub_truncTowardZero_lt_one (x * scale)
  have hfactor : x - hostValue (hostRaw x scale) scale = (x * scale - truncTowardZero (x * scale)) / scale := by
    rw [hostValue, hostRaw, sub_div, mul_div_cancel_right₀ x hpos.ne']
  rw [hfactor, abs_div, abs_of_pos hpos]
  exact div_lt_div_of_pos_right hlost hpos

end Sys2Proof.Proofs
end
